-- ==== Sys2Proof/Word.lean ====
section
/-! DEFINITION. The two word types of CA-CORE (00_scope.md rules R4, R5). -/

namespace Sys2Proof

/-- A register, a memory cell, an operand byte, an opcode byte, FL: "8 unsigned 8-bit" (R10), "256 unsigned
8-bit cells" (R20). -/
abbrev Byte := BitVec 8

/-- A value of the program counter, 9 bits wide (R14). -/
abbrev PcWord := BitVec 9

end Sys2Proof
end

