-- ==== Sys2Proof/Syntax.lean ====
section
/-! DEFINITION. The 13 instructions of CA-CORE (30_encoding.md rule R58), one constructor per row of
spec/opcode_table.json. -/

namespace Sys2Proof

/-- An instruction with its operand bytes. An operand is the WHOLE operand byte (R53, R56): a register index is
checked by the handler that uses it and not by the decoder (R61), so an index above 7 is an instruction like any
other, whose handler raises a fatal error. -/
inductive Instr where
  /-- "stop execution" (R90) -/
  | hlt
  /-- "reg[a] = b" (R91) -/
  | ldi (a b : Byte)
  /-- "output reg[a] as a decimal integer followed by newline" (R92) -/
  | prn (a : Byte)
  /-- "SP -= 1; mem[SP] = reg[a]" (R100) -/
  | push (a : Byte)
  /-- "reg[a] = mem[SP]; SP += 1" (R101) -/
  | pop (a : Byte)
  /-- "push (PC+2) onto stack; PC = reg[a]" (R110) -/
  | call (a : Byte)
  /-- "pop stack into PC" (R111) -/
  | ret
  /-- "PC = reg[a]" (R120) -/
  | jmp (a : Byte)
  /-- "if equal-flag set: PC = reg[a]; else PC += 2" (R121) -/
  | jeq (a : Byte)
  /-- "if equal-flag clear: PC = reg[a]; else PC += 2" (R122) -/
  | jne (a : Byte)
  /-- "reg[a] += reg[b]" (R131) -/
  | add (a b : Byte)
  /-- "reg[a] *= reg[b]" (R132) -/
  | mul (a b : Byte)
  /-- "set flag: equal / greater / less comparing reg[a], reg[b]" (R133) -/
  | cmp (a b : Byte)
  deriving DecidableEq, Repr

/-- The four instruction formats (R53). -/
inductive Format where
  /-- one byte: the opcode -/
  | f0
  /-- two bytes: the opcode and a register index -/
  | f1
  /-- three bytes: the opcode, a register index and an immediate -/
  | f2i
  /-- three bytes: the opcode and two register indices -/
  | f2r
  deriving DecidableEq, Repr

end Sys2Proof
end

