-- ==== Sys2Proof/WellFormed.lean ====
section
/-! DEFINITION. Well-formed instructions: every register operand names a register (10_state.md rule R12,
30_encoding.md rules R56, R63). -/

namespace Sys2Proof

/-- The operand bytes an instruction names as register indices, in the order `a`, `b` (R53, R56). LDI's `b` is an
immediate and is not among them (R158). -/
def Instr.regOperands : Instr → List Byte
  | .hlt | .ret => []
  | .ldi a _ | .prn a | .push a | .pop a | .call a | .jmp a | .jeq a | .jne a => [a]
  | .add a b | .mul a b | .cmp a b => [a, b]

/-- "Values 0 to 7 select R0 to R7; values 8 to 255 select nothing" (R56). -/
def namesRegister (a : Byte) : Bool := a.toNat < 8

/-- An instruction is well formed when each of its register operands names a register. An instruction that is
not well formed still decodes and still runs (R61): its handler raises `OutOfBoundsRegister` when it indexes the
register file (R12). Every well-formed instruction has an assembly spelling, and no other has (R63). -/
def Instr.wellFormed (i : Instr) : Bool := i.regOperands.all namesRegister

end Sys2Proof
end

