-- ==== Sys2Proof/Decode.lean ====
section
/-! DEFINITION. The encoding of the 13 instructions: the decoder, total on any three bytes and rejecting by name,
then the encoder (30_encoding.md rules R50 to R63, 40_execution_loop.md rules R72 to R74). -/

namespace Sys2Proof

/-- Why a byte at the place of an opcode is no instruction (R61). -/
inductive Reject where
  /-- bit 5 is set and the byte is not ADD, MUL or CMP (R59) -/
  | unsupportedOperation (ir : Byte)
  /-- bit 5 is clear and the byte is not in the dispatch table (R60) -/
  | unknownOpcode (ir : Byte)
  deriving DecidableEq, Repr

/-- The ALU bit of an opcode byte, bit 5, mask 0b00100000 (R51). -/
def isAlu (ir : Byte) : Bool := ir.getLsbD 5

/-- The PCSET bit of an opcode byte, bit 4, mask 0b00010000 (R51). -/
def setsPc (ir : Byte) : Bool := ir.getLsbD 4

/-- ALU dispatch "by exact opcode value" (R73). -/
def decodeAlu (ir a b : Byte) : Except Reject Instr :=
  if ir = 0b10100000 then .ok (.add a b)
  else if ir = 0b10100010 then .ok (.mul a b)
  else if ir = 0b10100111 then .ok (.cmp a b)
  else .error (.unsupportedOperation ir)

/-- The non-ALU lookup table "keyed by the exact opcode byte" (R51, R74). -/
def decodeTable (ir a b : Byte) : Except Reject Instr :=
  if ir = 0b00000001 then .ok .hlt
  else if ir = 0b10000010 then .ok (.ldi a b)
  else if ir = 0b01000111 then .ok (.prn a)
  else if ir = 0b01000101 then .ok (.push a)
  else if ir = 0b01000110 then .ok (.pop a)
  else if ir = 0b01010000 then .ok (.call a)
  else if ir = 0b00010001 then .ok .ret
  else if ir = 0b01010100 then .ok (.jmp a)
  else if ir = 0b01010101 then .ok (.jeq a)
  else if ir = 0b01010110 then .ok (.jne a)
  else .error (.unknownOpcode ir)

/-- Classification and dispatch of the three fetched bytes: the ALU test is made first (R72). `a` and `b` are used
only where the format of the instruction names them (R57, R75). -/
def decode (ir a b : Byte) : Except Reject Instr :=
  if isAlu ir then decodeAlu ir a b else decodeTable ir a b

/-- The format of an instruction (R53, R58). -/
def Instr.format : Instr → Format
  | .hlt | .ret => .f0
  | .prn _ | .push _ | .pop _ | .call _ | .jmp _ | .jeq _ | .jne _ => .f1
  | .ldi _ _ => .f2i
  | .add _ _ | .mul _ _ | .cmp _ _ => .f2r

/-- The number of operand bytes of a format (R53). -/
def Format.operands : Format → Nat
  | .f0 => 0
  | .f1 => 1
  | .f2i | .f2r => 2

/-- The length of an instruction in bytes: the opcode byte and its operand bytes (R50). -/
def Instr.length (i : Instr) : Nat := 1 + i.format.operands

/-- The opcode byte of an instruction (R58). -/
def Instr.opcode : Instr → Byte
  | .hlt => 0b00000001
  | .ldi _ _ => 0b10000010
  | .prn _ => 0b01000111
  | .push _ => 0b01000101
  | .pop _ => 0b01000110
  | .call _ => 0b01010000
  | .ret => 0b00010001
  | .jmp _ => 0b01010100
  | .jeq _ => 0b01010101
  | .jne _ => 0b01010110
  | .add _ _ => 0b10100000
  | .mul _ _ => 0b10100010
  | .cmp _ _ => 0b10100111

/-- The "PC self-sets?" column: the instructions whose handler writes PC itself (R58, R76). -/
def Instr.selfSetting : Instr → Bool
  | .call _ | .ret | .jmp _ | .jeq _ | .jne _ => true
  | .hlt | .ldi _ _ | .prn _ | .push _ | .pop _ | .add _ _ | .mul _ _ | .cmp _ _ => false

/-- The "ALU bit" column: the instructions the ALU performs (R58). -/
def Instr.onAlu : Instr → Bool
  | .add _ _ | .mul _ _ | .cmp _ _ => true
  | .hlt | .ldi _ _ | .prn _ | .push _ | .pop _ | .call _ | .ret | .jmp _ | .jeq _ | .jne _ => false

/-- The operand bytes of an instruction, at ascending addresses after the opcode byte (R36, R53). -/
def Instr.operandBytes : Instr → List Byte
  | .hlt | .ret => []
  | .prn a | .push a | .pop a | .call a | .jmp a | .jeq a | .jne a => [a]
  | .ldi a b | .add a b | .mul a b | .cmp a b => [a, b]

/-- The bytes of an instruction, the opcode byte first (R36, R53). -/
def encode (i : Instr) : List Byte := i.opcode :: i.operandBytes

/-- The instruction read from the first three bytes of a list; a byte the list does not have is read as zero. The
machine itself always fetches three bytes (R62). -/
def decodeBytes (bs : List Byte) : Except Reject Instr :=
  decode (bs.getD 0 0) (bs.getD 1 0) (bs.getD 2 0)

/-- The three bytes of a word numbered as spec/opcode_table.json numbers its bits: byte `k` is bits `8k+7..8k`, and
every bit from `nbits` on is zero. -/
def tableBytes (nbits w : Nat) : List Byte :=
  let v := w % 2 ^ nbits
  [BitVec.ofNat 8 v, BitVec.ofNat 8 (v / 256), BitVec.ofNat 8 (v / 65536)]

/-- What the decoder reads from a table word, none where it rejects. -/
def decodeTableWord (nbits w : Nat) : Option Instr :=
  (decodeBytes (tableBytes nbits w)).toOption

/-- The name of an instruction, as the opcode table has it (R58). -/
def Instr.mnemonic : Instr → String
  | .hlt => "HLT"
  | .ldi _ _ => "LDI"
  | .prn _ => "PRN"
  | .push _ => "PUSH"
  | .pop _ => "POP"
  | .call _ => "CALL"
  | .ret => "RET"
  | .jmp _ => "JMP"
  | .jeq _ => "JEQ"
  | .jne _ => "JNE"
  | .add _ _ => "ADD"
  | .mul _ _ => "MUL"
  | .cmp _ _ => "CMP"

/-- A register operand as R63 spells it. -/
def regName (a : Byte) : String := "R" ++ toString a.toNat

/-- The operands of an instruction as R63 spells them, with a decimal immediate. -/
def Instr.operandText : Instr → String
  | .hlt | .ret => ""
  | .ldi a b => " " ++ regName a ++ "," ++ toString b.toNat
  | .prn a | .push a | .pop a | .call a | .jmp a | .jeq a | .jne a => " " ++ regName a
  | .add a b | .mul a b | .cmp a b => " " ++ regName a ++ "," ++ regName b

/-- The assembly spelling of an instruction (R63, decision D19): "A register index above 7 has no assembly
spelling". -/
def Instr.assembly (i : Instr) : Option String :=
  if i.wellFormed then some (i.mnemonic ++ i.operandText) else none

end Sys2Proof
end

