-- ==== Sys2Proof/Config.lean ====
section
/-! DEFINITION. The implementation parameters of CA-CORE (00_scope.md rule R4). -/

namespace Sys2Proof.Config

/-- `MEM_SIZE`: the number of memory cells, addresses 0 to 255 (R4, R20). -/
abbrev memSize : Nat := 256

/-- `NREGS`: the number of general registers, indices 0 to 7 (R4, R10). -/
abbrev nregs : Nat := 8

/-- `SP_INDEX`: the register that is the stack pointer (R4, R11). -/
abbrev spIndex : Fin nregs := 7

/-- `SP_RESET`: the stack pointer after reset (R4, R24). -/
abbrev spReset : Byte := 0xF4

/-- `PC_RESET`: the entry point (R4, R24). -/
abbrev pcReset : PcWord := 0

/-- `FL_RESET`: the flag register after reset (R4, R24, decision D5). -/
abbrev flReset : Byte := 0x00

/-- What a cell that nothing has written reads as: "memory zero-filled" (R24). -/
abbrev memReset : Byte := 0x00

/-- `CYCLES_PER_INSN`: the OPEN timing parameter, read by no rule (R4, R196, decision D21). It has no body, so
no proof can know its value, and no definition of this model reads it (log entry 13). -/
opaque cyclesPerInsn : Nat

end Sys2Proof.Config
end

