-- ==== Sys2Proof/Machine/State.lean ====
section
/-! DEFINITION. The architectural state of CA-CORE, the tuple `(x[0..7], pc, fl, run, mem[0..255], out)` of
10_state.md, its reset value (rule R24), and the reasons a step can stop. -/

namespace Sys2Proof.Machine

/-- The four fatal errors with the info each records (60_exceptions.md rule R150). `raise` of one sets `run`
(R161). -/
inductive FatalError where
  /-- a memory address, or a new stack pointer, outside 0..255 (R151): the offending address -/
  | outOfBoundsMemory (addr : Int)
  /-- a register index above 7 (R152): the offending operand byte -/
  | outOfBoundsRegister (index : Byte)
  /-- an ALU-class opcode other than ADD, MUL, CMP (R153): the opcode byte -/
  | unsupportedOperation (ir : Byte)
  /-- a non-ALU opcode absent from the dispatch table (R154): the opcode byte -/
  | unknownOpcode (ir : Byte)
  deriving DecidableEq, Repr

/-- The run state (R18). -/
inductive RunState where
  /-- the only state in which a step is taken (R70) -/
  | running
  /-- HLT was executed (R90) -/
  | halted
  /-- a fatal error ended the run: its cause and info (R161) -/
  | faulted (e : FatalError)
  deriving DecidableEq, Repr

/-- Memory as the list of the cells that differ from the value every cell has after reset, in ascending order of
address (R20, R24). `Memory.wf` (Machine/Ops.lean) says the form. -/
abbrev Memory := List Host.Cell

/-- The whole architectural state (10_state.md). -/
structure State where
  /-- `x[0..7]`, R7 being the stack pointer (R10, R11) -/
  regs : Vector Byte Config.nregs
  /-- the program counter, 9 bits (R14) -/
  pc : PcWord
  /-- the flag register: E bit 0, G bit 1, L bit 2, bits 7:3 zero (R16) -/
  fl : Byte
  /-- the run state (R18) -/
  run : RunState
  /-- `mem[0..255]` (R20) -/
  mem : Memory
  /-- the output stream OUT, oldest first (R21) -/
  out : List Byte
  deriving DecidableEq, Repr

/-- The state after reset with the empty program image (R24, R181). `State.resetWith` (Machine/Boot.lean) is the
reset with any image. -/
def State.reset : State where
  regs := #v[0, 0, 0, 0, 0, 0, 0, Config.spReset]
  pc := Config.pcReset
  fl := Config.flReset
  run := .running
  mem := []
  out := []

/-- Why the machine has no step. A fatal error of an instruction is NOT one of these: it is a next state, whose
`run` is `faulted` (R161). Both are raised by `step` alone, and both are safe: the spec gives no step there
(R70, log entry 2). -/
inductive Fault where
  /-- `step` in a HALTED state: "In state HALTED or FAULTED the machine has no step" (R70). Safe. -/
  | halted
  /-- `step` in a FAULTED state, with the fatal error that ended the run (R70, R164). Safe. -/
  | faulted (e : FatalError)
  deriving DecidableEq, Repr

/-- Why an instruction has no meaning here. -/
inductive Refusal where
  /-- An instruction this model gives no meaning, by its mnemonic. Raised by no arm of `exec`: every instruction has
  its meaning. Safe. -/
  | notModelled (mnemonic : String)
  deriving DecidableEq, Repr

end Sys2Proof.Machine
end

