-- ==== Sys2Proof/Machine/Ops.lean ====
section
/-! DEFINITION. The shared operations over memory, registers and the program counter, fetch, and the raising of a
fatal error (00_scope.md rule R6, 20_memory.md, 60_exceptions.md). -/

namespace Sys2Proof.Machine

/-! ### Memory as data -/

/-- The canonical form of a memory: addresses strictly rising and below 256, and no cell listed that holds its
reset value. -/
def Memory.wf : Memory → Bool
  | [] => true
  | c :: m => c.1 < Config.memSize && c.2 != Config.memReset && m.all (fun d => c.1 < d.1) && Memory.wf m

/-- The value of a cell: the one listed, or the reset value (R24, R31). -/
def Memory.read : Memory → Nat → Byte
  | [], _ => Config.memReset
  | c :: m, addr => if c.1 = addr then c.2 else Memory.read m addr

/-- The memory with no entry for an address. -/
def Memory.erase : Memory → Nat → Memory
  | [], _ => []
  | c :: m, addr => if c.1 = addr then Memory.erase m addr else c :: Memory.erase m addr

/-- The memory with one more entry, before the first of a higher address. -/
def Memory.insert : Memory → Nat → Byte → Memory
  | [], addr, v => [(addr, v)]
  | c :: m, addr, v => if addr < c.1 then (addr, v) :: c :: m else c :: Memory.insert m addr v

/-- The memory after one cell is written: "exactly one cell changes" (R32). -/
def Memory.write (m : Memory) (addr : Nat) (v : Byte) : Memory :=
  if v = Config.memReset then m.erase addr else (m.erase addr).insert addr v

/-- The memory after bytes are written "sequentially" from an address upward (R187); a byte whose address does not
exist is not written. -/
def Memory.storeFrom (m : Memory) (base : Nat) : List Byte → Memory
  | [] => m
  | v :: vs => Memory.storeFrom (if base < Config.memSize then m.write base v else m) (base + 1) vs

/-! ### Registers, program counter, output -/

/-- `x[i]` for an index that names a register (R10). -/
def State.reg (s : State) (r : Fin Config.nregs) : Byte := s.regs[r]

/-- `x[i] <- v` for an index that names a register; no register ignores a write (R10). -/
def State.setReg (s : State) (r : Fin Config.nregs) (v : Byte) : State :=
  { s with regs := s.regs.set r v }

/-- `sp`, "another name for `x[7]`" (R6, R11). -/
def State.sp (s : State) : Byte := s.reg Config.spIndex

/-- `pc <- target` (R6, R14). -/
def State.setPc (s : State) (target : PcWord) : State := { s with pc := target }

/-- The net sequential movement of the program counter by an instruction of `n` bytes (R78). -/
def State.advance (s : State) (n : PcWord) : State := s.setPc (s.pc + n)

/-- `zext_9(v)` (R6). -/
def zext9 (v : Byte) : PcWord := v.setWidth 9

/-- `Output(v)`: append a byte to OUT (R6, R21). -/
def State.output (s : State) (v : Byte) : State := { s with out := s.out ++ [v] }

/-! ### The memory primitives -/

/-- `MemRead(addr, 1)`, the address being a mathematical integer (R31). -/
def memRead (addr : Int) (s : State) : Except FatalError Byte :=
  if addr < 0 ∨ addr > 255 then .error (.outOfBoundsMemory addr) else .ok (s.mem.read addr.toNat)

/-- `MemWrite(addr, 1, v)` (R32). -/
def memWrite (addr : Int) (v : Byte) (s : State) : Except FatalError State :=
  if addr < 0 ∨ addr > 255 then .error (.outOfBoundsMemory addr)
  else .ok { s with mem := s.mem.write addr.toNat v }

/-- Fetch: three bounds-checked reads, always, in the order `pc`, `pc + 1`, `pc + 2`, computed without wrap
(R71). -/
def fetch (s : State) : Except FatalError (Byte × Byte × Byte) := do
  let ir ← memRead s.pc.toNat s
  let a ← memRead (s.pc.toNat + 1) s
  let b ← memRead (s.pc.toNat + 2) s
  return (ir, a, b)

/-! ### Fatal errors -/

/-- `raise <Exception>(info)`: abandon the instruction with no architectural write and set
`run <- FAULTED(<Exception>, info)` (R6, R161, R162). There is no return from it: FAULTED is left by reset only
(R164; `State.resetWith` in Machine/Boot.lean). -/
def raise (e : FatalError) (s : State) : Host.Outcome State Fault Refusal :=
  .next { s with run := .faulted e }

/-- The end of a handler: its writes, all together, or the fatal error and none of them (R75, R162). -/
def commit (s : State) (r : Except FatalError State) : Host.Outcome State Fault Refusal :=
  match r with
  | .ok t => .next t
  | .error e => raise e s

/-- The fatal error the dispatcher raises for a byte that is no opcode (R73, R74). -/
def rejectError : Reject → FatalError
  | .unsupportedOperation ir => .unsupportedOperation ir
  | .unknownOpcode ir => .unknownOpcode ir

/-- The cause code of a fatal error (R150). -/
def FatalError.code : FatalError → Nat
  | .outOfBoundsMemory _ => 1
  | .outOfBoundsRegister _ => 2
  | .unsupportedOperation _ => 3
  | .unknownOpcode _ => 4

/-- The info value of a fatal error as an integer (R150). -/
def FatalError.info : FatalError → Int
  | .outOfBoundsMemory addr => addr
  | .outOfBoundsRegister index => index.toNat
  | .unsupportedOperation ir => ir.toNat
  | .unknownOpcode ir => ir.toNat

end Sys2Proof.Machine
end

