-- ==== Sys2Proof/Machine/Flags.lean ====
section
/-! DEFINITION. The flag register FL: the three bits, the comparison that computes them, and the one write of FL
(10_state.md rules R16, R17, 45_alu.md rules R133, R134). -/

namespace Sys2Proof.Machine

/-- Bit E, the equal flag: "equal = bit0" (R16). -/
def State.flagE (s : State) : Bool := s.fl.getLsbD 0

/-- Bit G, the greater-than flag: "greater = bit1" (R16). No instruction reads it (R17). -/
def State.flagG (s : State) : Bool := s.fl.getLsbD 1

/-- Bit L, the less-than flag: "less = bit2" (R16). No instruction reads it (R17). -/
def State.flagL (s : State) : Bool := s.fl.getLsbD 2

/-- The 3-bit one-hot value (L, G, E) of the unsigned comparison of the first operand against the second
(R133, R134). -/
def compareFlags (x y : Byte) : BitVec 3 :=
  if x.toNat = y.toNat then 0b001 else if x.toNat > y.toNat then 0b010 else 0b100

/-- FL overwritten wholesale, bits 7:3 zero (R16, R17). -/
def State.setFlags (s : State) (lge : BitVec 3) : State := { s with fl := lge.setWidth 8 }

end Sys2Proof.Machine
end

