-- ==== Sys2Proof/Machine/Operands.lean ====
section
/-! DEFINITION. The operand forms of CA-CORE: a register index, the immediate, a jump target held in a register, and
the stack pointer pre-decremented for a write and post-incremented after a read (20_memory.md rule R39,
30_encoding.md rule R56, 42_stack.md rule R102). -/

namespace Sys2Proof.Machine

/-- The check made when a handler indexes the register file with an operand byte (R12). The index is never reduced
modulo 8. -/
def regOperand (a : Byte) : Except FatalError (Fin Config.nregs) :=
  if h : a.toNat < Config.nregs then .ok ⟨a.toNat, h⟩ else .error (.outOfBoundsRegister a)

/-- LDI's `b`: the byte "written to the register unchanged" (R56). -/
def immOperand (b : Byte) : Byte := b

/-- The target of a jump or call: `zext_9(x[r])` (R56, R78). -/
def jumpTarget (r : Fin Config.nregs) (s : State) : PcWord := zext9 (s.reg r)

/-- A stack pointer computed as an integer without wrap: it must be an address, or nothing is done (R102). -/
def stackPointer (addr : Int) : Except FatalError Byte :=
  if addr < 0 ∨ addr > 255 then .error (.outOfBoundsMemory addr) else .ok (BitVec.ofInt 8 addr)

/-- The pre-decrement of a push: `x[7] <- sp - 1` (R100, R102, R110). -/
def decSp (s : State) : Except FatalError State := do
  let new ← stackPointer (s.sp.toNat - 1)
  return s.setReg Config.spIndex new

/-- The post-increment of a pop: `x[7] <- sp + 1` (R101, R102, R111). -/
def incSp (s : State) : Except FatalError State := do
  let new ← stackPointer (s.sp.toNat + 1)
  return s.setReg Config.spIndex new

/-- A push: the stack pointer is decremented, and then a value is written at it. The value is read from the state
AFTER the decrement (R100, decision D14). -/
def pushValue (value : State → Byte) (s : State) : Except FatalError State := do
  let t ← decSp s
  memWrite t.sp.toNat (value t) t

/-- The byte on top of the stack (R101, R111). -/
def topOfStack (s : State) : Except FatalError Byte := memRead s.sp.toNat s

/-- The byte CALL stores: the address of the CALL plus 2. A CALL that executes has `pc <= 253`, so that it fits a cell
(R110); in a state where it does not fit, which fetch rules out, its low 8 bits are stored (DESIGN CHOICE, log
entry 4). -/
def returnAddress (s : State) : Byte := (s.pc + 2).setWidth 8

end Sys2Proof.Machine
end

