-- ==== Sys2Proof/Machine/Alu.lean ====
section
/-! DEFINITION. The ALU as a block, and ADD, MUL, CMP (45_alu.md). -/

namespace Sys2Proof.Machine

/-- The operation select of the ALU (R134). -/
inductive AluOp where
  | add
  | mul
  | cmp
  deriving DecidableEq, Repr

/-- What the ALU puts out: an 8-bit result, or the 3-bit one-hot flag value (R134). -/
inductive AluOut where
  | result (v : Byte)
  | flags (lge : BitVec 3)
  deriving DecidableEq, Repr

/-- A sum or product reduced modulo 256, "that is its low 8 bits" (R130). -/
def wrap (n : Nat) : Byte := BitVec.ofNat 8 (n % 256)

/-- The ALU, purely combinational: the exact sum or product of the unsigned operands, narrowed at the end, or their
comparison (R130, R134). -/
def alu (op : AluOp) (x y : Byte) : AluOut :=
  match op with
  | .add => .result (wrap (x.toNat + y.toNat))
  | .mul => .result (wrap (x.toNat * y.toNat))
  | .cmp => .flags (compareFlags x y)

/-- Where the ALU's output goes: a result to `x[a]`, a flag value to FL (R134). -/
def aluWriteback (r : Fin Config.nregs) (o : AluOut) (s : State) : State :=
  match o with
  | .result v => s.setReg r v
  | .flags lge => s.setFlags lge

/-- The shape of the three ALU instructions: both indices checked, `a` before `b` (R158), both registers read, the
output written, `pc <- pc + 3` (R131 to R133). -/
def aluInstr (op : AluOp) (a b : Byte) (s : State) : Except FatalError State := do
  let ra ← regOperand a
  let rb ← regOperand b
  return (aluWriteback ra (alu op (s.reg ra) (s.reg rb)) s).advance 3

/-- ADD: `x[a] <- (x[a] + x[b]) mod 256; pc <- pc + 3` (R131). -/
def execAdd (a b : Byte) (s : State) : Host.Outcome State Fault Refusal :=
  commit s (aluInstr .add a b s)

/-- MUL: `x[a] <- (x[a] * x[b]) mod 256; pc <- pc + 3` (R132). -/
def execMul (a b : Byte) (s : State) : Host.Outcome State Fault Refusal :=
  commit s (aluInstr .mul a b s)

/-- CMP: all of FL overwritten by the comparison of `x[a]` against `x[b]`; `pc <- pc + 3` (R133). -/
def execCmp (a b : Byte) (s : State) : Host.Outcome State Fault Refusal :=
  commit s (aluInstr .cmp a b s)

end Sys2Proof.Machine
end

