-- ==== Sys2Proof/Machine/Jumps.lean ====
section
/-! DEFINITION. JMP, JEQ, JNE (44_jumps.md). -/

namespace Sys2Proof.Machine

/-- A jump to the address in a register (R120). -/
def jumpTo (a : Byte) (s : State) : Except FatalError State := do
  let r ← regOperand a
  return s.setPc (jumpTarget r s)

/-- A conditional jump of two bytes: when it is not taken the register file is not indexed, so that no index is
checked (R121, R122, decision D13). -/
def jumpIf (taken : Bool) (a : Byte) (s : State) : Except FatalError State :=
  if taken then jumpTo a s else .ok (s.advance 2)

/-- JMP: `pc <- zext_9(x[a])` (R120). -/
def execJmp (a : Byte) (s : State) : Host.Outcome State Fault Refusal :=
  commit s (jumpTo a s)

/-- JEQ: taken exactly when bit E of FL is set (R121). -/
def execJeq (a : Byte) (s : State) : Host.Outcome State Fault Refusal :=
  commit s (jumpIf s.flagE a s)

/-- JNE: taken exactly when bit E of FL is clear (R122). -/
def execJne (a : Byte) (s : State) : Host.Outcome State Fault Refusal :=
  commit s (jumpIf (!s.flagE) a s)

end Sys2Proof.Machine
end

