-- ==== Sys2Proof/Machine/Stack.lean ====
section
/-! DEFINITION. PUSH, POP (42_stack.md). -/

namespace Sys2Proof.Machine

/-- PUSH: `x[7] <- sp - 1; MemWrite(x[7], 1, x[a]); pc <- pc + 2`, `x[a]` read after the decrement (R100). -/
def execPush (a : Byte) (s : State) : Host.Outcome State Fault Refusal :=
  commit s do
    let r ← regOperand a
    let t ← pushValue (fun u => u.reg r) s
    return t.advance 2

/-- POP: `x[a] <- MemRead(sp, 1)`, then `x[7]` incremented, then `pc <- pc + 2`; with `a = 7` the increment reads the
byte just loaded (R101). -/
def execPop (a : Byte) (s : State) : Host.Outcome State Fault Refusal :=
  commit s do
    let r ← regOperand a
    let v ← topOfStack s
    let t ← incSp (s.setReg r v)
    return t.advance 2

end Sys2Proof.Machine
end

