-- ==== Sys2Proof/Machine/Subroutine.lean ====
section
/-! DEFINITION. CALL, RET (43_subroutine.md). -/

namespace Sys2Proof.Machine

/-- CALL: `x[7] <- sp - 1; MemWrite(x[7], 1, pc + 2); pc <- zext_9(x[a])`, `x[a]` read after the push (R110). -/
def execCall (a : Byte) (s : State) : Host.Outcome State Fault Refusal :=
  commit s do
    let r ← regOperand a
    let t ← pushValue returnAddress s
    return t.setPc (jumpTarget r t)

/-- RET: `v <- MemRead(sp, 1); x[7] <- sp + 1; pc <- zext_9(v)` (R111). -/
def execRet (s : State) : Host.Outcome State Fault Refusal :=
  commit s do
    let v ← topOfStack s
    let t ← incSp s
    return t.setPc (zext9 v)

end Sys2Proof.Machine
end

