-- ==== Sys2Proof/Machine/SystemData.lean ====
section
/-! DEFINITION. HLT, LDI, PRN (41_system_data.md). -/

namespace Sys2Proof.Machine

/-- HLT: `run <- HALTED; pc <- pc + 1` (R90). -/
def execHlt (s : State) : Host.Outcome State Fault Refusal :=
  commit s (.ok { s.advance 1 with run := .halted })

/-- LDI: `x[a] <- b; pc <- pc + 3` (R91). -/
def execLdi (a b : Byte) (s : State) : Host.Outcome State Fault Refusal :=
  commit s do
    let r ← regOperand a
    return (s.setReg r (immOperand b)).advance 3

/-- PRN: `Output(x[a]); pc <- pc + 2` (R92). -/
def execPrn (a : Byte) (s : State) : Host.Outcome State Fault Refusal :=
  commit s do
    let r ← regOperand a
    return (s.output (s.reg r)).advance 2

end Sys2Proof.Machine
end

