-- ==== Sys2Proof/Machine/Step.lean ====
section
/-! DEFINITION. One step of the machine (40_execution_loop.md rule R77), and the placing of a word where the next step
fetches it. -/

namespace Sys2Proof.Machine

/-- One step: taken if and only if `run = RUNNING` (R70); fetch (R71), dispatch (R72 to R74), handler. In a HALTED or
FAULTED state "the machine has no step" (R70), which is a fault outcome (DEDUCED, log entry 2). -/
def step (s : State) : Host.Outcome State Fault Refusal :=
  match s.run with
  | .halted => .fault .halted
  | .faulted e => .fault (.faulted e)
  | .running =>
    match fetch s with
    | .error e => raise e s
    | .ok (ir, a, b) =>
      match decode ir a b with
      | .error r => raise (rejectError r) s
      | .ok i => exec i s

/-- The state with an instruction's three bytes stored at the program counter, where the next step fetches. A byte whose
address is above 255 is not stored: no cell exists there (log entry 5). -/
def State.withFetchWord (s : State) (nbits w : Nat) : State :=
  { s with mem := s.mem.storeFrom s.pc.toNat (tableBytes nbits w) }

end Sys2Proof.Machine
end

