-- ==== Sys2Proof/Machine/Boot.lean ====
section
/-! DEFINITION. Reset with a program image, the host's one duty before a run (70_reset_and_hazards.md rules R180, R181,
R187). -/

namespace Sys2Proof.Machine

/-- The memory that holds a program image from address 0 upward, zero beyond it (R187). -/
def Memory.ofImage (image : List Byte) : Memory := Memory.storeFrom [] 0 image

/-- `reset(IMAGE)`: the construction state (R181). "a longer image forms no reset state" (R187, decision D18). -/
def State.resetWith (image : List Byte) : Option State :=
  if image.length ≤ Config.memSize then some { State.reset with mem := Memory.ofImage image } else none

/-- Reset applied to a machine in ANY state, HALTED and FAULTED included: it "produce[s] exactly the construction
state", and "nothing survives a reset" (R180, decision D20). It is the only exit from HALTED and FAULTED. -/
def State.reapplyReset (_ : State) (image : List Byte) : Option State := State.resetWith image

end Sys2Proof.Machine
end

