-- ==== Sys2Proof/Machine/Ports.lean ====
section
/-! DEFINITION. What the outside sees of CA-CORE: the memory accesses of a step in their order (20_memory.md rule R39)
and the signals of 10_state.md rule R26, each with its host contact of rule R25. These are views of State: no rule
of the machine reads one. -/

namespace Sys2Proof.Machine

/-- One access of the Execution Engine to memory, through one of the two primitives (R30). -/
inductive Access where
  /-- `MemRead(addr, 1)` (R31) -/
  | read (addr : Nat)
  /-- `MemWrite(addr, 1, v)` (R32): `mem_addr`, `mem_wdata` and the strobe `mem_we` of R26 -/
  | write (addr : Nat) (v : Byte)
  deriving DecidableEq, Repr

/-- What an access does to memory: a read changes nothing (R31), a write changes one cell (R32). -/
def Access.apply (m : Memory) : Access → Memory
  | .read _ => m
  | .write addr v => m.write addr v

/-- The fetch reads, in order; "an out-of-range address is never driven because the access faults first" (R26, R71). -/
def fetchAccesses (s : State) : List Access :=
  ([s.pc.toNat, s.pc.toNat + 1, s.pc.toNat + 2].takeWhile (· < Config.memSize)).map .read

/-- The write of a push, none where the stack pointer range rule faults first (R39, R102). -/
def pushAccesses (value : State → Byte) (s : State) : List Access :=
  match decSp s with
  | .ok t => [.write t.sp.toNat (value t)]
  | .error _ => []

/-- The accesses an instruction makes after the three fetch reads (the table of R39). An instruction whose register
index faults makes none (R157). -/
def handlerAccesses (i : Instr) (s : State) : List Access :=
  match i with
  | .push a =>
    match regOperand a with
    | .ok r => pushAccesses (fun u => u.reg r) s
    | .error _ => []
  | .pop a =>
    match regOperand a with
    | .ok _ => [.read s.sp.toNat]
    | .error _ => []
  | .call a =>
    match regOperand a with
    | .ok _ => pushAccesses returnAddress s
    | .error _ => []
  | .ret => [.read s.sp.toNat]
  | .hlt | .ldi _ _ | .prn _ | .jmp _ | .jeq _ | .jne _ | .add _ _ | .mul _ _ | .cmp _ _ => []

/-- All the accesses of the step taken from a state, in order: none where no step is taken (R39, R70). -/
def stepAccesses (s : State) : List Access :=
  match s.run with
  | .halted | .faulted _ => []
  | .running =>
    fetchAccesses s ++
      match fetch s with
      | .error _ => []
      | .ok (ir, a, b) =>
        match decode ir a b with
        | .error _ => []
        | .ok i => handlerAccesses i s

/-- `out_valid` and `out_data`: the byte PRN hands to the host in the step from one state to the next, none when the
step puts none out (R25, R26). -/
def outPulse (s t : State) : Option Byte := (t.out.drop s.out.length).head?

/-- The line the host prints for one output byte: its decimal numeral and a newline (R21, R92). -/
def hostLine (v : Byte) : String := toString v.toNat ++ "\n"

/-- The status signals of R26. -/
structure StatusPorts where
  /-- `halted`: `run = HALTED` -/
  halted : Bool
  /-- `fault`: `run = FAULTED(...)` -/
  fault : Bool
  /-- `fault_cause`: the code 1 to 4, "0 when `fault` is low" -/
  faultCause : BitVec 3
  /-- `fault_info`: the info value as a 9-bit two's-complement number. The spec gives it no value while `fault` is low,
  and it has none here (log entry 6). -/
  faultInfo : Option (BitVec 9)
  deriving DecidableEq, Repr

/-- The status contact: what the host sees of `run` (R25, R26, R163). -/
def statusPorts (s : State) : StatusPorts :=
  match s.run with
  | .running => ⟨false, false, 0, none⟩
  | .halted => ⟨true, false, 0, none⟩
  | .faulted e => ⟨false, true, BitVec.ofNat 3 e.code, some (BitVec.ofInt 9 e.info)⟩

/-- The state while `rst` is high: every component at its reset value, "memory contents excepted", into which the host
writes one cell when `load_we` is high (R26). -/
def rstCycle (s : State) (load : Option (Byte × Byte)) : State :=
  match load with
  | none => { State.reset with mem := s.mem }
  | some (addr, data) => { State.reset with mem := s.mem.write addr.toNat data }

end Sys2Proof.Machine
end

