-- ==== Sys2Proof/Safety.lean ====
section
/-! DEFINITION. What claims about runs of CA-CORE are made in: the run of the machine and how it ends
(40_execution_loop.md rules R77, R79), the fatal errors that can be raised (60_exceptions.md rules R150 to R154), and
the invariant of the machine. -/

namespace Sys2Proof.Machine

/-- `run_machine(s)`: "while `run = RUNNING` do `step(s)`" (R77), for at most `n` steps. -/
def runMachine : Nat → State → State
  | 0, s => s
  | n + 1, s =>
    match step s with
    | .next t => runMachine n t
    | .fault _ => s
    | .refused _ => s

/-- A run that ends well: the program executed a HLT (R79). -/
def EndsWell (s : State) : Prop := ∃ n, (runMachine n s).run = .halted

/-- A run that ends badly: a fatal error was raised (R79). -/
def EndsBadly (s : State) : Prop := ∃ n e, (runMachine n s).run = .faulted e

/-- A run that never ends: "a hang is an infinite sequence of steps" (R79). -/
def NeverEnds (s : State) : Prop := ∀ n, (runMachine n s).run = .running

/-- The values FL can have: no comparison yet, or exactly one of E, G, L (R17). -/
def flLegal (fl : Byte) : Bool := fl = 0x00 || fl = 0x01 || fl = 0x02 || fl = 0x04

/-- The fatal errors that can be raised, each with the info values it can record (R150 to R154). -/
def FatalError.legal : FatalError → Bool
  | .outOfBoundsMemory addr => addr = 256 || addr = -1
  | .outOfBoundsRegister index => 7 < index.toNat
  | .unsupportedOperation ir => isAlu ir && !(ir = 0xA0 || ir = 0xA2 || ir = 0xA7)
  | .unknownOpcode ir =>
    !isAlu ir && !(ir = 0x01 || ir = 0x82 || ir = 0x47 || ir = 0x45 || ir = 0x46 || ir = 0x50 || ir = 0x11 ||
      ir = 0x54 || ir = 0x55 || ir = 0x56)

/-- A run state that a run can come to. -/
def RunState.legal : RunState → Bool
  | .running | .halted => true
  | .faulted e => e.legal

/-- The invariant: memory in its canonical form, so that equal memories are equal data; PC in 0..256 (R15); FL one of its
four values, bits 7:3 zero (R16, R17); a recorded fatal error one that the spec can raise (R150 to R154). -/
def State.inv (s : State) : Bool :=
  s.mem.wf && decide (s.pc.toNat ≤ 256) && flLegal s.fl && s.run.legal

/-- The operand bytes with which the handler of an instruction indexes the register file in a state, in the order it
does (R12, R13, R158): those of a conditional jump only when it is taken (R121, R122). -/
def indexedOperands (i : Instr) (s : State) : List Byte :=
  match i with
  | .jeq a => if s.flagE then [a] else []
  | .jne a => if s.flagE then [] else [a]
  | .hlt | .ldi _ _ | .prn _ | .push _ | .pop _ | .call _ | .ret | .jmp _ | .add _ _ | .mul _ _ | .cmp _ _ =>
    i.regOperands

/-- The fatal error of the stack pointer range rule, where the handler of an instruction meets it: a push or call with
`sp = 0`; a pop or return whose new stack pointer would be 256, which for `POP R7` depends on the byte popped
(R101, R102, R110, R111). -/
def stackError (i : Instr) (s : State) : Option FatalError :=
  match i with
  | .push _ | .call _ => if s.sp = 0 then some (.outOfBoundsMemory (-1)) else none
  | .pop a => if (if a = 7 then s.mem.read s.sp.toNat else s.sp) = 255 then some (.outOfBoundsMemory 256) else none
  | .ret => if s.sp = 255 then some (.outOfBoundsMemory 256) else none
  | .hlt | .ldi _ _ | .prn _ | .jmp _ | .jeq _ | .jne _ | .add _ _ | .mul _ _ | .cmp _ _ => none

/-- The fatal error the handler of an instruction raises in a state, if it raises one: the first register index out of
range, and only then the stack pointer range rule (R157, R158). -/
def handlerError (i : Instr) (s : State) : Option FatalError :=
  match (indexedOperands i s).find? (fun a => !namesRegister a) with
  | some a => some (.outOfBoundsRegister a)
  | none => stackError i s

/-- The registers an instruction reads, by index (the table of R13): a conditional jump reads its register only when it is
taken. -/
def readRegs (i : Instr) (s : State) : List Nat :=
  match i with
  | .prn a | .jmp a => [a.toNat]
  | .push a | .call a => [7, a.toNat]
  | .pop _ | .ret => [7]
  | .jeq a => if s.flagE then [a.toNat] else []
  | .jne a => if s.flagE then [] else [a.toNat]
  | .add a b | .mul a b | .cmp a b => [a.toNat, b.toNat]
  | .hlt | .ldi _ _ => []

/-- The registers an instruction writes, by index (the table of R13). -/
def writtenRegs : Instr → List Nat
  | .ldi a _ | .add a _ | .mul a _ => [a.toNat]
  | .pop a => [a.toNat, 7]
  | .push _ | .call _ | .ret => [7]
  | .hlt | .prn _ | .jmp _ | .jeq _ | .jne _ | .cmp _ _ => []

end Sys2Proof.Machine
end

