-- ==== Sys2Proof/Certificates/Slice0/Obligations.lean ====
section
/-! DEFINITION. The statements for the provers. A docstring names the rules of spec/ a statement formalises; where it
rests on a decision D<n> of 92_eei_decisions.md, which is the spec's own choice, or on a log entry, it says so. -/

open Sys2Proof Sys2Proof.Machine

/-! ### Encoding -/

/-- The 13 rows of the opcode table (30_encoding.md sections 2 and 4): the bytes of each instruction, opcode byte first,
with any operand bytes, and what the decoder reads from them whatever the bytes that are no part of it. -/
def Obligations.OpcodeTableDecodesAndEncodes : Prop :=
  ∀ a b : Byte,
    (decode 0b00000001 a b = .ok .hlt ∧ encode .hlt = [0x01]) ∧
    (decode 0b10000010 a b = .ok (.ldi a b) ∧ encode (.ldi a b) = [0x82, a, b]) ∧
    (decode 0b01000111 a b = .ok (.prn a) ∧ encode (.prn a) = [0x47, a]) ∧
    (decode 0b01000101 a b = .ok (.push a) ∧ encode (.push a) = [0x45, a]) ∧
    (decode 0b01000110 a b = .ok (.pop a) ∧ encode (.pop a) = [0x46, a]) ∧
    (decode 0b01010000 a b = .ok (.call a) ∧ encode (.call a) = [0x50, a]) ∧
    (decode 0b00010001 a b = .ok .ret ∧ encode .ret = [0x11]) ∧
    (decode 0b01010100 a b = .ok (.jmp a) ∧ encode (.jmp a) = [0x54, a]) ∧
    (decode 0b01010101 a b = .ok (.jeq a) ∧ encode (.jeq a) = [0x55, a]) ∧
    (decode 0b01010110 a b = .ok (.jne a) ∧ encode (.jne a) = [0x56, a]) ∧
    (decode 0b10100000 a b = .ok (.add a b) ∧ encode (.add a b) = [0xA0, a, b]) ∧
    (decode 0b10100010 a b = .ok (.mul a b) ∧ encode (.mul a b) = [0xA2, a, b]) ∧
    (decode 0b10100111 a b = .ok (.cmp a b) ∧ encode (.cmp a b) = [0xA7, a, b])

/-- Decode and encode agree, for every instruction with every operand byte (30_encoding.md sections 1 to 4): the bytes of
an instruction decode to it whatever bytes follow, and three bytes decode to it ONLY if they begin with its bytes.
The bytes after an instruction's own are ignored (decision D16). -/
def Obligations.DecodeAndEncodeAgree : Prop :=
  ∀ i : Instr,
    (∀ x y : Byte, decodeBytes (encode i ++ [x, y]) = .ok i) ∧
    (∀ ir a b : Byte, decode ir a b = .ok i ↔ encode i <+: [ir, a, b])

/-- Each of the 256 opcode byte values is exactly one of valid (13), unsupported ALU (125) or unknown (118), whatever the
operand bytes (30_encoding.md section 5, a passage the spec marks as derived). -/
def Obligations.OpcodeSpaceIsPartitioned : Prop :=
  let valid : List Byte := [0x01, 0x82, 0x47, 0x45, 0x46, 0x50, 0x11, 0x54, 0x55, 0x56, 0xA0, 0xA2, 0xA7]
  (∀ ir a b : Byte,
    ((∃ i, decode ir a b = .ok i) ↔ ir ∈ valid) ∧
    (decode ir a b = .error (.unsupportedOperation ir) ↔ ir.getLsbD 5 = true ∧ ir ∉ valid) ∧
    (decode ir a b = .error (.unknownOpcode ir) ↔ ir.getLsbD 5 = false ∧ ir ∉ valid)) ∧
  ((List.finRange 256).countP fun n => decide ((BitVec.ofFin n : Byte) ∈ valid)) = 13 ∧
  ((List.finRange 256).countP fun n =>
    (BitVec.ofFin n : Byte).getLsbD 5 && decide ((BitVec.ofFin n : Byte) ∉ valid)) = 125 ∧
  ((List.finRange 256).countP fun n =>
    !(BitVec.ofFin n : Byte).getLsbD 5 && decide ((BitVec.ofFin n : Byte) ∉ valid)) = 118

/-! ### The step -/

/-- A step runs the decoded instruction (40_execution_loop.md section 5): `step` adds nothing around the handler, which
moves the program counter itself. -/
def Obligations.StepRunsTheDecodedInstruction : Prop :=
  ∀ (s : State) (i : Instr), s.run = .running → s.pc.toNat ≤ 253 →
    decode (s.mem.read s.pc.toNat) (s.mem.read (s.pc.toNat + 1)) (s.mem.read (s.pc.toNat + 2)) = .ok i →
    step s = exec i s

/-- Where the bytes of an instruction stand in memory from the program counter upward, in the order opcode, `a`, `b`, the
step runs that instruction, whatever stands after it (20_memory.md section 2, 30_encoding.md section 2). -/
def Obligations.StepRunsTheInstructionStoredAtPc : Prop :=
  ∀ (s : State) (i : Instr), s.run = .running → s.pc.toNat ≤ 253 →
    (∀ k (h : k < (encode i).length), s.mem.read (s.pc.toNat + k) = (encode i)[k]) →
    step s = exec i s

/-- A step is taken if and only if the machine is running (40_execution_loop.md section 1). That a running state always has a
next state, also where the instruction has a fatal error (R77, R80), and that it then differs in the run state alone
(R161, R162), rests on decision D8 and is said by a next state in this model (log entry 1, DEDUCED); that a halted or
faulted machine has no step and stays as it is, is said by the fault outcome and by `runMachine` (log entry 2,
DEDUCED). -/
def Obligations.StepTakenIffRunning : Prop :=
  ∀ s : State,
    ((∃ t, step s = .next t) ↔ s.run = .running) ∧
    (s.run = .running →
      (∃ i, decode (s.mem.read s.pc.toNat) (s.mem.read (s.pc.toNat + 1)) (s.mem.read (s.pc.toNat + 2)) = .ok i ∧
        step s = exec i s) ∨
      ∃ e, step s = .next { s with run := .faulted e }) ∧
    (s.run ≠ .running → ∀ n, runMachine n s = s)

/-- An instruction whose opcode byte is at 254 or 255, and a program counter of 256, fault in fetch with the info value
256, whatever stands there (40_execution_loop.md section 2, decision D3). In the states no run reaches, with the
program counter above 256, the address reported is the program counter. -/
def Obligations.FetchFaultsAtTheTopOfMemory : Prop :=
  ∀ s : State, s.run = .running → 254 ≤ s.pc.toNat →
    step s = .next { s with run := .faulted (.outOfBoundsMemory (max 256 s.pc.toNat)) }

/-- R73: the ALU dispatch, by the exact opcode value; any other byte with bit 5 set is a fatal unsupported operation. -/
def Obligations.AluDispatchByExactOpcode : Prop :=
  ∀ s : State, s.run = .running → s.pc.toNat ≤ 253 →
    ∀ ir a b : Byte, s.mem.read s.pc.toNat = ir → s.mem.read (s.pc.toNat + 1) = a →
      s.mem.read (s.pc.toNat + 2) = b → ir.getLsbD 5 = true →
    (ir = 0xA0 → step s = exec (.add a b) s) ∧
    (ir = 0xA2 → step s = exec (.mul a b) s) ∧
    (ir = 0xA7 → step s = exec (.cmp a b) s) ∧
    (ir ∉ ([0xA0, 0xA2, 0xA7] : List Byte) →
      step s = .next { s with run := .faulted (.unsupportedOperation ir) })

/-- R74: the lookup table for the opcodes with bit 5 clear; a miss is a fatal unknown opcode. -/
def Obligations.TableDispatchByExactOpcode : Prop :=
  ∀ s : State, s.run = .running → s.pc.toNat ≤ 253 →
    ∀ ir a b : Byte, s.mem.read s.pc.toNat = ir → s.mem.read (s.pc.toNat + 1) = a →
      s.mem.read (s.pc.toNat + 2) = b → ir.getLsbD 5 = false →
    (ir = 0x01 → step s = exec .hlt s) ∧
    (ir = 0x82 → step s = exec (.ldi a b) s) ∧
    (ir = 0x47 → step s = exec (.prn a) s) ∧
    (ir = 0x45 → step s = exec (.push a) s) ∧
    (ir = 0x46 → step s = exec (.pop a) s) ∧
    (ir = 0x50 → step s = exec (.call a) s) ∧
    (ir = 0x11 → step s = exec .ret s) ∧
    (ir = 0x54 → step s = exec (.jmp a) s) ∧
    (ir = 0x55 → step s = exec (.jeq a) s) ∧
    (ir = 0x56 → step s = exec (.jne a) s) ∧
    (ir ∉ ([0x01, 0x82, 0x47, 0x45, 0x46, 0x50, 0x11, 0x54, 0x55, 0x56] : List Byte) →
      step s = .next { s with run := .faulted (.unknownOpcode ir) })

/-! ### The instructions: result, completion, frame and fatal errors -/

/-- HLT (41_system_data.md): it completes in every state, sets the run state and moves the program counter by 1, nothing
else; no instruction after it is executed; and no other instruction halts the machine. -/
def Obligations.HltHaltsTheMachine : Prop :=
  ∀ s : State,
    exec .hlt s = .next { s with run := .halted, pc := s.pc + 1 } ∧
    (∀ n, runMachine n { s with run := .halted, pc := s.pc + 1 } = { s with run := .halted, pc := s.pc + 1 }) ∧
    (∀ (i : Instr) (t : State), s.run = .running → exec i s = .next t → t.run = .halted → i = .hlt)

/-- R91, LDI: its encoding; for every register index 0 to 7, the immediate unchanged in that register, the program counter
moved by 3 and everything else as it was; for every other index the fatal error and nothing written. -/
def Obligations.LdiLoadsTheImmediate : Prop :=
  ∀ (a b : Byte) (s : State),
    decode 0x82 a b = .ok (.ldi a b) ∧
    (∀ h : a.toNat < 8, exec (.ldi a b) s = .next { s with regs := s.regs.set a.toNat b, pc := s.pc + 3 }) ∧
    (7 < a.toNat → exec (.ldi a b) s = .next { s with run := .faulted (.outOfBoundsRegister a) })

/-- PRN (41_system_data.md): the register's byte is appended to OUT, and the program counter moved by 2; nothing else
changes. That OUT is a part of the state is decision D11. -/
def Obligations.PrnAppendsTheRegister : Prop :=
  ∀ (a : Byte) (s : State),
    (∀ h : a.toNat < 8, exec (.prn a) s = .next { s with out := s.out ++ [s.regs[a.toNat]], pc := s.pc + 2 }) ∧
    (7 < a.toNat → exec (.prn a) s = .next { s with run := .faulted (.outOfBoundsRegister a) })

/-- PUSH (42_stack.md): the stack pointer is decremented and the register, read after the decrement, lands in the cell below
the old stack pointer; no other cell and no other register changes. With `sp = 0` the fatal error, and the index
check comes first (decisions D7, D12, D14). -/
def Obligations.PushStoresBelowTheStackPointer : Prop :=
  ∀ (a : Byte) (s : State),
    (∀ h : a.toNat < 8, 1 ≤ s.sp.toNat → ∃ t,
      exec (.push a) s = .next t ∧
      t.regs = s.regs.set 7 (s.sp - 1) ∧
      t.mem.read (s.sp.toNat - 1) = (if a = 7 then s.sp - 1 else s.regs[a.toNat]) ∧
      (∀ addr, addr ≠ s.sp.toNat - 1 → t.mem.read addr = s.mem.read addr) ∧
      t.pc = s.pc + 2 ∧ t.fl = s.fl ∧ t.out = s.out ∧ t.run = s.run) ∧
    (a.toNat < 8 → s.sp = 0 → exec (.push a) s = .next { s with run := .faulted (.outOfBoundsMemory (-1)) }) ∧
    (7 < a.toNat → exec (.push a) s = .next { s with run := .faulted (.outOfBoundsRegister a) })

/-- POP (42_stack.md): the register gets the byte at the stack pointer and the stack pointer is then incremented, which for
`POP R7` increments the byte just loaded; memory does not change. A new stack pointer of 256 is the fatal error, and
the index check comes first (decisions D7, D12, D14). -/
def Obligations.PopLoadsFromTheStackPointer : Prop :=
  ∀ (a : Byte) (s : State),
    (∀ h : a.toNat < 8, a ≠ 7 → s.sp.toNat ≤ 254 →
      exec (.pop a) s = .next
        { s with regs := (s.regs.set a.toNat (s.mem.read s.sp.toNat)).set 7 (s.sp + 1), pc := s.pc + 2 }) ∧
    ((s.mem.read s.sp.toNat).toNat ≤ 254 →
      exec (.pop 7) s = .next { s with regs := s.regs.set 7 (s.mem.read s.sp.toNat + 1), pc := s.pc + 2 }) ∧
    (a.toNat < 8 → a ≠ 7 → s.sp = 255 →
      exec (.pop a) s = .next { s with run := .faulted (.outOfBoundsMemory 256) }) ∧
    (s.mem.read s.sp.toNat = 255 →
      exec (.pop 7) s = .next { s with run := .faulted (.outOfBoundsMemory 256) }) ∧
    (7 < a.toNat → exec (.pop a) s = .next { s with run := .faulted (.outOfBoundsRegister a) })

/-- CALL (43_subroutine.md): the address of the CALL plus 2 is pushed, and the program counter gets the register, read after
the push; no other cell and no other register changes. "`pc <= 253` inside every handler" (41_system_data.md).
With `sp = 0` the fatal error, and the index check comes first (decisions D7, D12, D14). -/
def Obligations.CallPushesTheReturnAddress : Prop :=
  ∀ (a : Byte) (s : State), s.pc.toNat ≤ 253 →
    (∀ h : a.toNat < 8, 1 ≤ s.sp.toNat → ∃ t,
      exec (.call a) s = .next t ∧
      t.regs = s.regs.set 7 (s.sp - 1) ∧
      (t.mem.read (s.sp.toNat - 1)).toNat = s.pc.toNat + 2 ∧
      (∀ addr, addr ≠ s.sp.toNat - 1 → t.mem.read addr = s.mem.read addr) ∧
      t.pc.toNat = (if a = 7 then s.sp.toNat - 1 else (s.regs[a.toNat]).toNat) ∧
      t.fl = s.fl ∧ t.out = s.out ∧ t.run = s.run) ∧
    (a.toNat < 8 → s.sp = 0 → exec (.call a) s = .next { s with run := .faulted (.outOfBoundsMemory (-1)) }) ∧
    (7 < a.toNat → exec (.call a) s = .next { s with run := .faulted (.outOfBoundsRegister a) })

/-- RET (43_subroutine.md): the program counter gets the byte at the stack pointer, whatever byte it is (decision D23), and
the stack pointer is incremented; nothing else changes. With `sp = 255` the fatal error (decision D7). -/
def Obligations.RetPopsTheProgramCounter : Prop :=
  ∀ s : State,
    (s.sp.toNat ≤ 254 → exec .ret s = .next
      { s with regs := s.regs.set 7 (s.sp + 1), pc := (s.mem.read s.sp.toNat).setWidth 9 }) ∧
    (s.sp = 255 → exec .ret s = .next { s with run := .faulted (.outOfBoundsMemory 256) })

/-- JMP (44_jumps.md): its encoding, whatever byte follows it; the program counter gets the register's full 8-bit value and nothing
else changes; a register index above 7 is the fatal error. -/
def Obligations.JmpJumpsToTheRegister : Prop :=
  ∀ (a b : Byte) (s : State),
    decode 0x54 a b = .ok (.jmp a) ∧
    (∀ h : a.toNat < 8, exec (.jmp a) s = .next { s with pc := (s.regs[a.toNat]).setWidth 9 }) ∧
    (7 < a.toNat → exec (.jmp a) s = .next { s with run := .faulted (.outOfBoundsRegister a) })

/-- JEQ (44_jumps.md): with bit E of FL set, the jump; with it clear, the program counter moved by 2 whatever the operand
byte, since the register file is not indexed (decision D13). Nothing else changes. -/
def Obligations.JeqBranchesOnEqualSet : Prop :=
  ∀ (a : Byte) (s : State),
    (s.fl.getLsbD 0 = true → ∀ h : a.toNat < 8,
      exec (.jeq a) s = .next { s with pc := (s.regs[a.toNat]).setWidth 9 }) ∧
    (s.fl.getLsbD 0 = true → 7 < a.toNat →
      exec (.jeq a) s = .next { s with run := .faulted (.outOfBoundsRegister a) }) ∧
    (s.fl.getLsbD 0 = false → exec (.jeq a) s = .next { s with pc := s.pc + 2 })

/-- JNE (44_jumps.md): with bit E of FL clear, the jump; with it set, the program counter moved by 2 whatever the operand
byte, since the register file is not indexed (decision D13). Nothing else changes. -/
def Obligations.JneBranchesOnEqualClear : Prop :=
  ∀ (a : Byte) (s : State),
    (s.fl.getLsbD 0 = false → ∀ h : a.toNat < 8,
      exec (.jne a) s = .next { s with pc := (s.regs[a.toNat]).setWidth 9 }) ∧
    (s.fl.getLsbD 0 = false → 7 < a.toNat →
      exec (.jne a) s = .next { s with run := .faulted (.outOfBoundsRegister a) }) ∧
    (s.fl.getLsbD 0 = true → exec (.jne a) s = .next { s with pc := s.pc + 2 })

/-- ADD (45_alu.md): the sum of the two registers reduced modulo 256 (decision D1) in the first, also when both operands name
one register or the stack pointer; FL and everything else as it was. A register index out of range is the fatal
error, `a` reported before `b` (decision D12). -/
def Obligations.AddWritesTheSumModulo256 : Prop :=
  ∀ (a b : Byte) (s : State),
    (∀ (ha : a.toNat < 8) (hb : b.toNat < 8), exec (.add a b) s = .next
      { s with
        regs := s.regs.set a.toNat (BitVec.ofNat 8 (((s.regs[a.toNat]).toNat + (s.regs[b.toNat]).toNat) % 256))
        pc := s.pc + 3 }) ∧
    (7 < a.toNat → exec (.add a b) s = .next { s with run := .faulted (.outOfBoundsRegister a) }) ∧
    (a.toNat < 8 → 7 < b.toNat → exec (.add a b) s = .next { s with run := .faulted (.outOfBoundsRegister b) })

/-- MUL (45_alu.md): as ADD with the product (decisions D1, D12). -/
def Obligations.MulWritesTheProductModulo256 : Prop :=
  ∀ (a b : Byte) (s : State),
    (∀ (ha : a.toNat < 8) (hb : b.toNat < 8), exec (.mul a b) s = .next
      { s with
        regs := s.regs.set a.toNat (BitVec.ofNat 8 (((s.regs[a.toNat]).toNat * (s.regs[b.toNat]).toNat) % 256))
        pc := s.pc + 3 }) ∧
    (7 < a.toNat → exec (.mul a b) s = .next { s with run := .faulted (.outOfBoundsRegister a) }) ∧
    (a.toNat < 8 → 7 < b.toNat → exec (.mul a b) s = .next { s with run := .faulted (.outOfBoundsRegister b) })

/-- CMP (45_alu.md): all of FL is overwritten, by E when the registers are equal, by G when the first is the greater as an
unsigned number, by L when it is the less (decision D6); everything else as it was. A register index out of range is
the fatal error, `a` reported before `b` (decision D12). -/
def Obligations.CmpSetsExactlyOneFlag : Prop :=
  ∀ (a b : Byte) (s : State),
    (∀ (ha : a.toNat < 8) (hb : b.toNat < 8),
      ((s.regs[a.toNat]).toNat = (s.regs[b.toNat]).toNat →
        exec (.cmp a b) s = .next { s with fl := 0x01, pc := s.pc + 3 }) ∧
      ((s.regs[a.toNat]).toNat > (s.regs[b.toNat]).toNat →
        exec (.cmp a b) s = .next { s with fl := 0x02, pc := s.pc + 3 }) ∧
      ((s.regs[a.toNat]).toNat < (s.regs[b.toNat]).toNat →
        exec (.cmp a b) s = .next { s with fl := 0x04, pc := s.pc + 3 })) ∧
    (7 < a.toNat → exec (.cmp a b) s = .next { s with run := .faulted (.outOfBoundsRegister a) }) ∧
    (a.toNat < 8 → 7 < b.toNat → exec (.cmp a b) s = .next { s with run := .faulted (.outOfBoundsRegister b) })

/-- The corners of the arithmetic law (45_alu.md section on R130, decision D1): adding 255 is subtracting 1, adding 0 and
multiplying by 1 leave the value, multiplying by 0 gives 0, and the products and sums the spec lists. -/
def Obligations.ArithmeticCorners : Prop :=
  (∀ v : Byte, alu .add v 255 = .result (v - 1) ∧ alu .add v 0 = .result v ∧ alu .mul v 0 = .result 0 ∧
    alu .mul v 1 = .result v) ∧
  alu .add 255 1 = .result 0 ∧ alu .add 255 255 = .result 254 ∧ alu .add 200 100 = .result 44 ∧
  alu .mul 16 16 = .result 0 ∧ alu .mul 255 255 = .result 1 ∧ alu .mul 255 2 = .result 254

/-! ### Sequences of two instructions -/

/-- "move Ra to Rb is PUSH Ra; POP Rb" (30_encoding.md section 6), and with `a = b` the round trip of 95_test_vectors.md S2:
the value arrives, the stack pointer is back where it was and no other register changes. `PUSH R7` pushes the
decremented stack pointer, and `POP R7` leaves the popped value plus 1, which must be no 256 (decisions D7, D14); so
`PUSH R7; POP R7` leaves R7 as it was. -/
def Obligations.PushThenPopMoves : Prop :=
  ∀ (a b : Byte) (s : State) (ha : a.toNat < 8) (hb : b.toNat < 8) (v : Byte), 1 ≤ s.sp.toNat →
    v = (if a = 7 then s.sp - 1 else s.regs[a.toNat]) → (b = 7 → v ≠ 255) →
    ∃ t u, exec (.push a) s = .next t ∧ exec (.pop b) t = .next u ∧
      u.regs = s.regs.set b.toNat (if b = 7 then v + 1 else v) ∧
      u.fl = s.fl ∧ u.out = s.out ∧ u.run = s.run ∧ u.pc = s.pc + 4

/-- CALL and then RET (95_test_vectors.md S2): execution resumes at the address after the CALL, with the registers, the
stack pointer among them, as they were before it. -/
def Obligations.CallThenRetResumesAfterTheCall : Prop :=
  ∀ (a : Byte) (s : State), a.toNat < 8 → 1 ≤ s.sp.toNat → s.pc.toNat ≤ 253 →
    ∃ t u, exec (.call a) s = .next t ∧ exec .ret t = .next u ∧
      u.pc.toNat = s.pc.toNat + 2 ∧ u.regs = s.regs ∧ u.fl = s.fl ∧ u.out = s.out ∧ u.run = s.run

/-- CMP and then a conditional jump (95_test_vectors.md S2): JEQ is taken exactly when the compared registers are equal, and
JNE exactly when they are not, whatever FL was before. -/
def Obligations.CompareDecidesTheConditionalJumps : Prop :=
  ∀ (a b c : Byte) (s : State) (ha : a.toNat < 8) (hb : b.toNat < 8) (hc : c.toNat < 8),
    ∃ t u v, exec (.cmp a b) s = .next t ∧ exec (.jeq c) t = .next u ∧ exec (.jne c) t = .next v ∧
      u.pc = (if s.regs[a.toNat] = s.regs[b.toNat] then (s.regs[c.toNat]).setWidth 9 else s.pc + 5) ∧
      v.pc = (if s.regs[a.toNat] = s.regs[b.toNat] then s.pc + 5 else (s.regs[c.toNat]).setWidth 9) ∧
      u.regs = s.regs ∧ v.regs = s.regs

/-- A push is seen by the very next fetch (20_memory.md section 5, a passage the spec marks as derived): a PUSH of the HLT
opcode into the cell after itself halts the machine at the next step, whatever that cell held. -/
def Obligations.PushedOpcodeIsFetchedNext : Prop :=
  ∀ (a : Byte) (s : State) (ha : a.toNat < 8), a ≠ 7 → s.run = .running → s.pc.toNat ≤ 251 →
    s.mem.read s.pc.toNat = 0x45 → s.mem.read (s.pc.toNat + 1) = a → s.sp.toNat = s.pc.toNat + 3 →
    s.regs[a.toNat] = 0x01 →
    ∃ t u, step s = .next t ∧ step t = .next u ∧ u.run = .halted ∧ u.pc.toNat = s.pc.toNat + 3

/-! ### Memory and registers -/

/-- The two memory primitives on any integer address (20_memory.md section 1: R31 for the read, R32 for the write). Out of
0..255 both raise; within it a read gives the value last written, a write changes exactly that cell and nothing else of
the state, and every cell is writable. That a write keeps the canonical form is said of this model's memory as data. A
cell of `State.reset` reads 0 because that is the reset with the EMPTY image (log entry 3, DESIGN CHOICE); with another
image the cell holds the image's byte (10_state.md section 7, R24; `ResetWithAnImage` says so). -/
def Obligations.MemoryPrimitives : Prop :=
  ∀ (addr : Int) (v : Byte) (s : State),
    (addr < 0 ∨ addr > 255 →
      memRead addr s = .error (.outOfBoundsMemory addr) ∧ memWrite addr v s = .error (.outOfBoundsMemory addr)) ∧
    (0 ≤ addr → addr ≤ 255 →
      (∃ w, memRead addr s = .ok w) ∧ memRead addr State.reset = .ok 0 ∧
      ∃ t, memWrite addr v s = .ok t ∧ memRead addr t = .ok v ∧
        (∀ x, x ≠ addr → memRead x t = memRead x s) ∧ { t with mem := s.mem } = s ∧
        (s.mem.wf = true → t.mem.wf = true))

/-- R10: eight registers of 8 bits, none of which reads as a constant or ignores a write, all zero after reset but R7, which
holds 0xF4; each is reached by an instruction under its own index. -/
def Obligations.RegisterFileHoldsWhatIsWritten : Prop :=
  (∀ r : Fin 8, State.reset.reg r = if r = 7 then 0xF4 else 0x00) ∧
  ∀ (s : State) (r : Fin 8) (v : Byte),
    ((s.setReg r v).reg r = v ∧ ∀ q, q ≠ r → (s.setReg r v).reg q = s.reg q) ∧
    ∃ t, exec (.ldi (BitVec.ofNat 8 r.val) v) s = .next t ∧ t.reg r = v ∧ ∀ q, q ≠ r → t.reg q = s.reg q

/-! ### Rules of the whole machine -/

/-- Every instruction with every operand answers a next state in every state: none stops the machine and none is refused
(40_execution_loop.md section 6; a fatal error is a next state, log entry 1). -/
def Obligations.EveryInstructionAnswersANextState : Prop :=
  ∀ (i : Instr) (s : State), ∃ t, exec i s = .next t

/-- The net movement of the program counter, row by row of R78's table (40_execution_loop.md section 4), for an instruction
that raises no fatal error, with `pc` the address of its opcode byte: by its own length where the PCSET bit is clear,
and to the value its handler writes where the bit is set. The sums do not wrap (decision D2, log entry 9); CALL reads its
register after the push, so that `CALL R7` goes to the decremented stack pointer (decision D14, log entry 19). A
conditional jump that is not taken moves by 2 and raises nothing whatever its operand byte, also one above 7
(decision D13, log entry 18). -/
def Obligations.ProgramCounterMovement : Prop :=
  (∀ (i : Instr) (s t : State), s.pc.toNat ≤ 253 → s.run = .running → exec i s = .next t →
    (∀ e, t.run ≠ .faulted e) →
    (setsPc i.opcode = false → t.pc.toNat = s.pc.toNat + i.operandBytes.length + 1) ∧
    (i = .hlt → t.pc.toNat = s.pc.toNat + 1) ∧
    (∀ a, i = .prn a ∨ i = .push a ∨ i = .pop a → t.pc.toNat = s.pc.toNat + 2) ∧
    (∀ a b, i = .ldi a b ∨ i = .add a b ∨ i = .mul a b ∨ i = .cmp a b → t.pc.toNat = s.pc.toNat + 3) ∧
    (∀ a, i = .call a → ∃ h : a.toNat < 8,
      t.pc.toNat = (if a = 7 then s.sp - 1 else s.regs[a.toNat]).toNat) ∧
    (i = .ret → t.pc.toNat = (s.mem.read s.sp.toNat).toNat) ∧
    (∀ a, i = .jmp a → ∃ h : a.toNat < 8, t.pc.toNat = (s.regs[a.toNat]).toNat) ∧
    (∀ a, i = .jeq a →
      (s.fl.getLsbD 0 = true → ∃ h : a.toNat < 8, t.pc.toNat = (s.regs[a.toNat]).toNat) ∧
      (s.fl.getLsbD 0 = false → t.pc.toNat = s.pc.toNat + 2)) ∧
    (∀ a, i = .jne a →
      (s.fl.getLsbD 0 = false → ∃ h : a.toNat < 8, t.pc.toNat = (s.regs[a.toNat]).toNat) ∧
      (s.fl.getLsbD 0 = true → t.pc.toNat = s.pc.toNat + 2)) ∧
    (setsPc i.opcode = true ↔ i = .ret ∨ ∃ a, i = .call a ∨ i = .jmp a ∨ i = .jeq a ∨ i = .jne a)) ∧
  (∀ (a : Byte) (s : State), s.pc.toNat ≤ 253 →
    (s.fl.getLsbD 0 = false →
      ∃ t, exec (.jeq a) s = .next t ∧ t.run = s.run ∧ t.pc.toNat = s.pc.toNat + 2) ∧
    (s.fl.getLsbD 0 = true →
      ∃ t, exec (.jne a) s = .next t ∧ t.run = s.run ∧ t.pc.toNat = s.pc.toNat + 2))

/-- Only CMP changes FL (10_state.md section 3): a step that changes it has the opcode of CMP at the program counter, and
leaves one of 0x01, 0x02, 0x04 in it, bits 7:3 zero (decision D4). -/
def Obligations.OnlyCmpWritesTheFlags : Prop :=
  ∀ s t : State, step s = .next t → t.fl ≠ s.fl →
    s.mem.read s.pc.toNat = 0xA7 ∧ (t.fl = 0x01 ∨ t.fl = 0x02 ∨ t.fl = 0x04)

/-- Of FL, bit E alone is read (10_state.md section 3): two states that differ only in FL and agree in bit E run every
instruction to states that differ only in FL, and CMP to the same state whatever FL was. -/
def Obligations.OnlyTheEqualFlagIsRead : Prop :=
  ∀ (i : Instr) (s t : State) (f : Byte), exec i s = .next t →
    (f.getLsbD 0 = s.fl.getLsbD 0 → (∀ a b, i ≠ .cmp a b) → exec i { s with fl := f } = .next { t with fl := f }) ∧
    (∀ a b, i = .cmp a b → a.toNat < 8 → b.toNat < 8 → exec i { s with fl := f } = .next t)

/-- Only PUSH and CALL change memory, and only the cell below the stack pointer (10_state.md section 5, 20_memory.md
section 2, conflict C1): every other cell reads as before, and every cell does after every other instruction. -/
def Obligations.OnlyPushAndCallWriteMemory : Prop :=
  ∀ (s t : State) (addr : Nat), step s = .next t → t.mem.read addr ≠ s.mem.read addr →
    (s.mem.read s.pc.toNat = 0x45 ∨ s.mem.read s.pc.toNat = 0x50) ∧ s.sp.toNat = addr + 1

/-- The memory accesses of 20_memory.md section 2's table, R39, row by row, and that the memory after an instruction or a
step is the memory before it with those accesses made in their order. After the three fetch reads: one write below the
stack pointer (PUSH, CALL), one read at it (POP, RET, made before the new stack pointer is checked), none for the
other nine. No access is made where the index check faults, or the range rule of a push with `sp = 0`
(decisions D7, D12); for `PUSH R7` the value written is the decremented stack pointer (decision D14). The fetch reads are
made whatever the opcode, an illegal one among them; of those at the top of memory, the ones up to address 255
(decision D3). -/
def Obligations.MemoryAccessesOfAStep : Prop :=
  (∀ (i : Instr) (s t : State), exec i s = .next t → t.mem = (handlerAccesses i s).foldl Access.apply s.mem) ∧
  (∀ s t : State, step s = .next t → t.mem = (stepAccesses s).foldl Access.apply s.mem) ∧
  (∀ (a : Byte) (s : State) (h : a.toNat < 8), 1 ≤ s.sp.toNat →
    handlerAccesses (.push a) s =
      [.write (s.sp.toNat - 1) (if a = 7 then s.sp - 1 else s.regs[a.toNat])] ∧
    (s.pc.toNat ≤ 253 →
      handlerAccesses (.call a) s = [.write (s.sp.toNat - 1) (BitVec.ofNat 8 (s.pc.toNat + 2))])) ∧
  (∀ (a : Byte) (s : State), s.sp = 0 → handlerAccesses (.push a) s = [] ∧ handlerAccesses (.call a) s = []) ∧
  (∀ (a : Byte) (s : State), a.toNat < 8 → handlerAccesses (.pop a) s = [.read s.sp.toNat]) ∧
  (∀ s : State, handlerAccesses .ret s = [.read s.sp.toNat]) ∧
  (∀ (a : Byte) (s : State), 7 < a.toNat →
    handlerAccesses (.push a) s = [] ∧ handlerAccesses (.call a) s = [] ∧ handlerAccesses (.pop a) s = []) ∧
  (∀ (a b : Byte) (s : State),
    handlerAccesses .hlt s = [] ∧ handlerAccesses (.ldi a b) s = [] ∧ handlerAccesses (.prn a) s = [] ∧
    handlerAccesses (.jmp a) s = [] ∧ handlerAccesses (.jeq a) s = [] ∧ handlerAccesses (.jne a) s = [] ∧
    handlerAccesses (.add a b) s = [] ∧ handlerAccesses (.mul a b) s = [] ∧ handlerAccesses (.cmp a b) s = []) ∧
  (∀ s : State, s.run = .running → s.pc.toNat ≤ 253 →
    (∀ i, decode (s.mem.read s.pc.toNat) (s.mem.read (s.pc.toNat + 1)) (s.mem.read (s.pc.toNat + 2)) = .ok i →
      stepAccesses s = [.read s.pc.toNat, .read (s.pc.toNat + 1), .read (s.pc.toNat + 2)] ++ handlerAccesses i s) ∧
    (∀ r, decode (s.mem.read s.pc.toNat) (s.mem.read (s.pc.toNat + 1)) (s.mem.read (s.pc.toNat + 2)) = .error r →
      stepAccesses s = [.read s.pc.toNat, .read (s.pc.toNat + 1), .read (s.pc.toNat + 2)])) ∧
  (∀ s : State, s.run = .running →
    (s.pc.toNat = 254 → stepAccesses s = [.read 254, .read 255]) ∧
    (s.pc.toNat = 255 → stepAccesses s = [.read 255]) ∧
    (256 ≤ s.pc.toNat → stepAccesses s = [])) ∧
  (∀ s : State, s.run ≠ .running → stepAccesses s = [])

/-- Every register an instruction does not write, by the table of 10_state.md section 1, is as it was: the register frame of
all 13 instructions. -/
def Obligations.RegistersOutsideTheTableAreKept : Prop :=
  ∀ (i : Instr) (s t : State), exec i s = .next t →
    ∀ r : Fin 8, r.val ∉ writtenRegs i → t.reg r = s.reg r

/-- An instruction's result depends on no register that the table of 10_state.md section 1 does not list as read: another value
in such a register is carried along, or overwritten where the instruction writes that register. -/
def Obligations.OnlyTheRegistersOfTheTableAreRead : Prop :=
  ∀ (i : Instr) (s t : State) (r : Fin 8) (v : Byte), exec i s = .next t → r.val ∉ readRegs i s →
    (r.val ∉ writtenRegs i → exec i (s.setReg r v) = .next (t.setReg r v)) ∧
    (r.val ∈ writtenRegs i → handlerError i s = none → exec i (s.setReg r v) = .next t)

/-- Only PRN puts out a byte, one per execution, the register its operand names, and nothing removes one (10_state.md
sections 5 and 8, decisions D11, D15). -/
def Obligations.OnlyPrnWritesTheOutput : Prop :=
  ∀ s t : State, step s = .next t → t.out ≠ s.out →
    s.mem.read s.pc.toNat = 0x47 ∧
      ∃ r : Fin 8, (s.mem.read (s.pc.toNat + 1)).toNat = r.val ∧ t.out = s.out ++ [s.reg r] ∧
        outPulse s t = some (s.reg r)

/-! ### Fatal errors -/

/-- A step that raises a fatal error changes nothing but the run state (60_exceptions.md section 4; that a fault is precise
is decision D8). -/
def Obligations.FatalErrorChangesOnlyTheRunState : Prop :=
  ∀ (s t : State) (e : FatalError), step s = .next t → t.run = .faulted e → t = { s with run := .faulted e }

/-- Which fatal error the handler of an instruction raises, for all 13 instructions: the first register index out of range in
the order `a`, `b`, of those the handler indexes in that state, and only then the stack pointer range rule; and none
where there is none (60_exceptions.md section 2; decisions D7, D12, D13). -/
def Obligations.HandlersRaiseTheFirstFatalError : Prop :=
  ∀ (i : Instr) (s : State), s.run = .running →
    ∀ e, (exec i s = .next { s with run := .faulted e } ↔ handlerError i s = some e)

/-- A well-formed instruction, one whose register operands all name registers, never raises `OutOfBoundsRegister`; one that
is not well formed raises it in every state, unless it is a conditional jump that is not taken (10_state.md
section 1, decision D13). -/
def Obligations.WellFormedInstructionsIndexWithinBounds : Prop :=
  ∀ (i : Instr) (s : State), s.run = .running →
    (i.wellFormed = true → ∀ k, exec i s ≠ .next { s with run := .faulted (.outOfBoundsRegister k) }) ∧
    (i.wellFormed = false → (∀ a, i ≠ .jeq a) → (∀ a, i ≠ .jne a) →
      ∃ k ∈ i.regOperands, 7 < k.toNat ∧ exec i s = .next { s with run := .faulted (.outOfBoundsRegister k) })

/-- The status signals of 10_state.md section 8 (decisions D9, D15, D24): `halted` and `fault` follow the run state, the cause
is the code 1 to 4 and 0 without a fault, and the info is a 9-bit two's-complement number, address 256 being 0x100 and
-1 being 0x1FF. -/
def Obligations.StatusSignalsReportTheRunState : Prop :=
  ∀ s : State,
    ((statusPorts s).halted = true ↔ s.run = .halted) ∧
    ((statusPorts s).fault = true ↔ ∃ e, s.run = .faulted e) ∧
    ((statusPorts s).fault = false → (statusPorts s).faultCause = 0) ∧
    (s.run = .faulted (.outOfBoundsMemory 256) →
      (statusPorts s).faultCause = 1 ∧ (statusPorts s).faultInfo = some 0x100) ∧
    (s.run = .faulted (.outOfBoundsMemory (-1)) →
      (statusPorts s).faultCause = 1 ∧ (statusPorts s).faultInfo = some 0x1FF) ∧
    (∀ k : Byte, s.run = .faulted (.outOfBoundsRegister k) →
      (statusPorts s).faultCause = 2 ∧ (statusPorts s).faultInfo = some (k.setWidth 9)) ∧
    (∀ ir : Byte, s.run = .faulted (.unsupportedOperation ir) →
      (statusPorts s).faultCause = 3 ∧ (statusPorts s).faultInfo = some (ir.setWidth 9)) ∧
    (∀ ir : Byte, s.run = .faulted (.unknownOpcode ir) →
      (statusPorts s).faultCause = 4 ∧ (statusPorts s).faultInfo = some (ir.setWidth 9))

/-! ### Reset -/

/-- The state after reset (10_state.md section 7; FL by decision D5, OUT by decision D11), with the empty image (log
entry 3). -/
def Obligations.ResetStateValues : Prop :=
  State.reset.regs = #v[0, 0, 0, 0, 0, 0, 0, 0xF4] ∧ State.reset.pc = 0 ∧ State.reset.fl = 0x00 ∧
    State.reset.run = .running ∧ State.reset.out = [] ∧ ∀ addr, State.reset.mem.read addr = 0x00

/-- Reset with an image of at most 256 bytes: byte `k` of the image in cell `k`, zero beyond it, all else as after reset, from
whatever state reset is applied in; a longer image forms no reset state (70_reset_and_hazards.md sections 1 and 2;
decisions D5, D11, D18, D20). -/
def Obligations.ResetWithAnImage : Prop :=
  ∀ (image : List Byte) (s : State),
    (image.length ≤ 256 → ∃ t, s.reapplyReset image = some t ∧
      (∀ k, k < 256 → t.mem.read k = image.getD k 0) ∧ t.mem.wf = true ∧
      { t with mem := [] } = State.reset) ∧
    (256 < image.length → s.reapplyReset image = none)

/-- While `rst` is high every component has its reset value, memory excepted, into which the load port writes one cell
(10_state.md section 8, decision D15; log entry 7). -/
def Obligations.ResetSignalAndLoadPort : Prop :=
  ∀ (s : State) (addr data : Byte),
    rstCycle s none = { State.reset with mem := s.mem } ∧
    { rstCycle s (some (addr, data)) with mem := [] } = State.reset ∧
    (rstCycle s (some (addr, data))).mem.read addr.toNat = data ∧
    (∀ x, x ≠ addr.toNat → (rstCycle s (some (addr, data))).mem.read x = s.mem.read x) ∧
    (s.mem.wf = true → (rstCycle s (some (addr, data))).mem.wf = true)

/-! ### Invariants and runs -/

/-- The reset state meets the invariant. -/
def Obligations.ResetMeetsTheInvariant : Prop := State.reset.inv = true

/-- Every step keeps the invariant: memory in its canonical form, the program counter in 0..256, FL one of 0x00, 0x01, 0x02,
0x04, and a recorded fatal error one that the spec can raise (10_state.md sections 2 and 3, 60_exceptions.md
section 1, passages the spec marks as derived or decided, D2, D4, D7). -/
def Obligations.StepKeepsTheInvariant : Prop :=
  ∀ s t : State, s.inv = true → step s = .next t → t.inv = true

/-- So every state that a run from any image comes to meets the invariant. -/
def Obligations.EveryReachableStateMeetsTheInvariant : Prop :=
  ∀ (image : List Byte) (s : State) (n : Nat), State.resetWith image = some s → (runMachine n s).inv = true

/-- A run that has ended stays ended: more steps change nothing (40_execution_loop.md section 6, 60_exceptions.md
section 4). -/
def Obligations.EndedRunStaysEnded : Prop :=
  ∀ (n k : Nat) (s : State), (runMachine n s).run ≠ .running → runMachine (n + k) s = runMachine n s

/-- A run ends well, ends badly, or never ends, and exactly one of the three (40_execution_loop.md section 6). -/
def Obligations.EveryRunEndsInExactlyOneWay : Prop :=
  ∀ s : State,
    (EndsWell s ∨ EndsBadly s ∨ NeverEnds s) ∧ ¬(EndsWell s ∧ EndsBadly s) ∧ ¬(EndsWell s ∧ NeverEnds s) ∧
      ¬(EndsBadly s ∧ NeverEnds s)

/-- Along a run the output only grows, at its end: what has been put out stays, in the order of execution (10_state.md
section 5, decision D11). -/
def Obligations.OutputOnlyGrowsAlongARun : Prop :=
  ∀ (n : Nat) (s : State), s.out <+: (runMachine n s).out
end

