-- ==== Sys2Proof/Laws/Memory.lean ====
section
/-! SUPPORT. Memory: a read after a write, and that every memory operation keeps the canonical form
(20_memory.md rules R31, R32). -/

namespace Sys2Proof.Machine

@[simp] theorem Memory.read_nil (addr : Nat) : Memory.read [] addr = 0 := rfl

theorem Memory.read_cons (c : Host.Cell) (m : Memory) (addr : Nat) :
    Memory.read (c :: m) addr = if c.1 = addr then c.2 else Memory.read m addr := rfl

/-! ### A read after a write -/

theorem Memory.read_erase (m : Memory) (x addr : Nat) :
    (Memory.erase m x).read addr = if addr = x then 0 else Memory.read m addr := by
  induction m with
  | nil => simp [Memory.erase]
  | cons c m ih =>
    simp only [Memory.erase]
    split <;> simp only [Memory.read_cons, ih] <;> grind

theorem Memory.read_insert (m : Memory) (x : Nat) (v : Byte) (addr : Nat) (h : Memory.read m x = 0)
    (h' : ∀ c ∈ m, c.1 ≠ x) :
    (Memory.insert m x v).read addr = if addr = x then v else Memory.read m addr := by
  induction m with
  | nil => simp [Memory.insert, Memory.read_cons, eq_comm]
  | cons c m ih =>
    have hc := h' c (by simp)
    have hm : Memory.read m x = 0 := by simpa [Memory.read_cons, hc] using h
    have ih := ih hm (fun d hd => h' d (by simp [hd]))
    simp only [Memory.insert]
    split <;> simp only [Memory.read_cons, ih] <;> grind

theorem Memory.erase_no_entry (m : Memory) (x : Nat) : ∀ c ∈ Memory.erase m x, c.1 ≠ x := by
  induction m with
  | nil => simp [Memory.erase]
  | cons c m ih =>
    simp only [Memory.erase]
    split
    · exact ih
    · simpa using ⟨by assumption, fun a b => ih (a, b)⟩

/-- The value read is "the value last written to that cell", and "no other cell changes" (R31, R32). It holds of
every list of cells, canonical or not. -/
@[simp] theorem Memory.read_write (m : Memory) (x : Nat) (v : Byte) (addr : Nat) :
    (Memory.write m x v).read addr = if addr = x then v else Memory.read m addr := by
  unfold Memory.write
  split
  · simp_all [Memory.read_erase]
  · rw [Memory.read_insert _ _ _ _ (by simp [Memory.read_erase]) (Memory.erase_no_entry m x), Memory.read_erase]
    split <;> rfl

theorem Memory.read_write_self (m : Memory) (x : Nat) (v : Byte) : (Memory.write m x v).read x = v := by simp

theorem Memory.read_write_ne (m : Memory) {x addr : Nat} (v : Byte) (h : addr ≠ x) :
    (Memory.write m x v).read addr = Memory.read m addr := by simp [h]

/-! ### The canonical form -/

@[simp] theorem Memory.wf_nil : Memory.wf [] = true := rfl

theorem Memory.wf_cons (c : Host.Cell) (m : Memory) :
    Memory.wf (c :: m) = true ↔ c.1 < 256 ∧ c.2 ≠ 0 ∧ (∀ d ∈ m, c.1 < d.1) ∧ Memory.wf m = true := by
  simp [Memory.wf, and_assoc]

theorem Memory.mem_erase {m : Memory} {x : Nat} {d : Host.Cell} (h : d ∈ Memory.erase m x) : d ∈ m := by
  induction m with
  | nil => simp [Memory.erase] at h
  | cons c m ih =>
    simp only [Memory.erase] at h
    split at h
    · exact List.mem_cons_of_mem _ (ih h)
    · rcases List.mem_cons.mp h with rfl | h
      · simp
      · exact List.mem_cons_of_mem _ (ih h)

theorem Memory.mem_insert {m : Memory} {x : Nat} {v : Byte} {d : Host.Cell} (h : d ∈ Memory.insert m x v) :
    d = (x, v) ∨ d ∈ m := by
  induction m with
  | nil => simpa [Memory.insert] using h
  | cons c m ih =>
    simp only [Memory.insert] at h
    split at h
    · simpa using h
    · rcases List.mem_cons.mp h with rfl | h
      · simp
      · rcases ih h with h | h <;> simp [h]

theorem Memory.wf_erase {m : Memory} (x : Nat) (h : Memory.wf m = true) : (Memory.erase m x).wf = true := by
  induction m with
  | nil => rfl
  | cons c m ih =>
    obtain ⟨h1, h2, h3, h4⟩ := (Memory.wf_cons c m).mp h
    simp only [Memory.erase]
    split
    · exact ih h4
    · exact (Memory.wf_cons _ _).mpr ⟨h1, h2, fun d hd => h3 d (Memory.mem_erase hd), ih h4⟩

theorem Memory.wf_insert {m : Memory} {x : Nat} {v : Byte} (h : Memory.wf m = true) (hx : x < 256) (hv : v ≠ 0)
    (hn : ∀ c ∈ m, c.1 ≠ x) : (Memory.insert m x v).wf = true := by
  induction m with
  | nil => exact (Memory.wf_cons _ _).mpr ⟨hx, hv, by simp, rfl⟩
  | cons c m ih =>
    obtain ⟨h1, h2, h3, h4⟩ := (Memory.wf_cons c m).mp h
    simp only [Memory.insert]
    split
    · rename_i hlt
      refine (Memory.wf_cons _ _).mpr ⟨hx, hv, ?_, h⟩
      intro d hd
      rcases List.mem_cons.mp hd with rfl | hd
      · exact hlt
      · exact Nat.lt_trans hlt (h3 d hd)
    · refine (Memory.wf_cons _ _).mpr ⟨h1, h2, ?_, ih h4 (fun d hd => hn d (List.mem_cons_of_mem _ hd))⟩
      intro d hd
      rcases Memory.mem_insert hd with rfl | hd
      · have := hn c (by simp)
        show c.1 < x
        omega
      · exact h3 d hd

/-- A write to a cell that exists keeps the canonical form. -/
theorem Memory.wf_write {m : Memory} {x : Nat} (v : Byte) (h : Memory.wf m = true) (hx : x < 256) :
    (Memory.write m x v).wf = true := by
  unfold Memory.write
  split
  · exact Memory.wf_erase x h
  · exact Memory.wf_insert (Memory.wf_erase x h) hx (by assumption) (Memory.erase_no_entry m x)

/-- Bytes stored one after the other keep the canonical form, wherever they begin. -/
theorem Memory.wf_storeFrom (vs : List Byte) :
    ∀ (m : Memory) (base : Nat), Memory.wf m = true → (Memory.storeFrom m base vs).wf = true := by
  induction vs with
  | nil => exact fun m _ h => h
  | cons v vs ih =>
    intro m base h
    simp only [Memory.storeFrom]
    apply ih
    split
    · exact Memory.wf_write v h (by assumption)
    · exact h

theorem Memory.wf_ofImage (image : List Byte) : (Memory.ofImage image).wf = true :=
  Memory.wf_storeFrom image [] 0 rfl

/-- What a cell holds after bytes are stored one after the other: the byte stored there, or what it held. -/
theorem Memory.read_storeFrom (vs : List Byte) : ∀ (m : Memory) (base addr : Nat), addr < 256 →
    (Memory.storeFrom m base vs).read addr =
      if base ≤ addr ∧ addr < base + vs.length then vs.getD (addr - base) 0 else Memory.read m addr := by
  induction vs with
  | nil =>
    intro m base addr _
    rw [if_neg (by simp)]
    rfl
  | cons v vs ih =>
    intro m base addr ha
    simp only [Memory.storeFrom, ih _ _ _ ha, List.length_cons]
    by_cases he : addr = base
    · subst he
      have : addr < Config.memSize := ha
      simp [this]
    · have hr : (if base < Config.memSize then Memory.write m base v else m).read addr = Memory.read m addr := by
        split <;> simp [he]
      rw [hr]
      by_cases hb : base + 1 ≤ addr ∧ addr < base + 1 + vs.length
      · have e : addr - base = addr - (base + 1) + 1 := by omega
        rw [if_pos hb, if_pos (by omega), e, List.getD_cons_succ]
      · rw [if_neg hb, if_neg (by omega)]

/-- Canonical memories that read the same at every address are the same list. -/
theorem Memory.ext_of_wf : ∀ {m n : Memory}, Memory.wf m = true → Memory.wf n = true →
    (∀ addr, Memory.read m addr = Memory.read n addr) → m = n
  | [], [], _, _, _ => rfl
  | [], d :: n, _, hn, h => by
    have := h d.1
    simp [Memory.read_cons] at this
    exact absurd this.symm ((Memory.wf_cons d n).mp hn).2.1
  | c :: m, [], hm, _, h => by
    have := h c.1
    simp [Memory.read_cons] at this
    exact absurd this ((Memory.wf_cons c m).mp hm).2.1
  | c :: m, d :: n, hm, hn, h => by
    obtain ⟨_, c2, c3, c4⟩ := (Memory.wf_cons c m).mp hm
    obtain ⟨_, d2, d3, d4⟩ := (Memory.wf_cons d n).mp hn
    have absent : ∀ (k : Memory) (x : Nat), (∀ e ∈ k, x < e.1) → Memory.read k x = 0 := by
      intro k x hk
      induction k with
      | nil => rfl
      | cons e k ih =>
        have := hk e (by simp)
        rw [Memory.read_cons, if_neg (by omega)]
        exact ih (fun f hf => hk f (by simp [hf]))
    have hc := h c.1
    have hd := h d.1
    simp only [Memory.read_cons, if_true] at hc hd
    have e1 : c.1 = d.1 := by
      rcases Nat.lt_trichotomy c.1 d.1 with lt | eq | gt
      · rw [if_neg (by omega), absent n c.1 (fun e he => Nat.lt_trans lt (d3 e he))] at hc
        exact absurd hc c2
      · exact eq
      · rw [if_neg (by omega), absent m d.1 (fun e he => Nat.lt_trans gt (c3 e he))] at hd
        exact absurd hd.symm d2
    have e2 : c.2 = d.2 := by simpa [e1] using hc
    have e3 : m = n := by
      refine Memory.ext_of_wf c4 d4 fun addr => ?_
      have := h addr
      simp only [Memory.read_cons, e1, e2] at this
      by_cases hx : d.1 = addr
      · subst hx
        rw [absent n d.1 d3, ← e1, absent m c.1 c3]
      · simpa [hx] using this
    rw [e3, Prod.ext e1 e2]

end Sys2Proof.Machine
end

