-- ==== Sys2Proof/Laws/State.lean ====
section
/-! SUPPORT. One lemma per field and per update of State, and what reading a register gives after each update, so
that no later proof unfolds a record update. -/

namespace Sys2Proof.Machine

/-! ### `setReg` -/

@[simp] theorem State.setReg_regs (s : State) (r : Fin Config.nregs) (v : Byte) : (s.setReg r v).regs = s.regs.set r v := rfl
@[simp] theorem State.setReg_pc (s : State) (r : Fin Config.nregs) (v : Byte) : (s.setReg r v).pc = s.pc := rfl
@[simp] theorem State.setReg_fl (s : State) (r : Fin Config.nregs) (v : Byte) : (s.setReg r v).fl = s.fl := rfl
@[simp] theorem State.setReg_run (s : State) (r : Fin Config.nregs) (v : Byte) : (s.setReg r v).run = s.run := rfl
@[simp] theorem State.setReg_mem (s : State) (r : Fin Config.nregs) (v : Byte) : (s.setReg r v).mem = s.mem := rfl
@[simp] theorem State.setReg_out (s : State) (r : Fin Config.nregs) (v : Byte) : (s.setReg r v).out = s.out := rfl

/-! ### `setPc` -/

@[simp] theorem State.setPc_regs (s : State) (target : PcWord) : (s.setPc target).regs = s.regs := rfl
@[simp] theorem State.setPc_pc (s : State) (target : PcWord) : (s.setPc target).pc = target := rfl
@[simp] theorem State.setPc_fl (s : State) (target : PcWord) : (s.setPc target).fl = s.fl := rfl
@[simp] theorem State.setPc_run (s : State) (target : PcWord) : (s.setPc target).run = s.run := rfl
@[simp] theorem State.setPc_mem (s : State) (target : PcWord) : (s.setPc target).mem = s.mem := rfl
@[simp] theorem State.setPc_out (s : State) (target : PcWord) : (s.setPc target).out = s.out := rfl
@[simp] theorem State.setPc_reg (s : State) (target : PcWord) (i : Fin Config.nregs) : (s.setPc target).reg i = s.reg i := rfl
@[simp] theorem State.setPc_sp (s : State) (target : PcWord) : (s.setPc target).sp = s.sp := rfl

/-! ### `advance` -/

@[simp] theorem State.advance_regs (s : State) (n : PcWord) : (s.advance n).regs = s.regs := rfl
@[simp] theorem State.advance_pc (s : State) (n : PcWord) : (s.advance n).pc = s.pc + n := rfl
@[simp] theorem State.advance_fl (s : State) (n : PcWord) : (s.advance n).fl = s.fl := rfl
@[simp] theorem State.advance_run (s : State) (n : PcWord) : (s.advance n).run = s.run := rfl
@[simp] theorem State.advance_mem (s : State) (n : PcWord) : (s.advance n).mem = s.mem := rfl
@[simp] theorem State.advance_out (s : State) (n : PcWord) : (s.advance n).out = s.out := rfl
@[simp] theorem State.advance_reg (s : State) (n : PcWord) (i : Fin Config.nregs) : (s.advance n).reg i = s.reg i := rfl
@[simp] theorem State.advance_sp (s : State) (n : PcWord) : (s.advance n).sp = s.sp := rfl

/-! ### `output` -/

@[simp] theorem State.output_regs (s : State) (v : Byte) : (s.output v).regs = s.regs := rfl
@[simp] theorem State.output_pc (s : State) (v : Byte) : (s.output v).pc = s.pc := rfl
@[simp] theorem State.output_fl (s : State) (v : Byte) : (s.output v).fl = s.fl := rfl
@[simp] theorem State.output_run (s : State) (v : Byte) : (s.output v).run = s.run := rfl
@[simp] theorem State.output_mem (s : State) (v : Byte) : (s.output v).mem = s.mem := rfl
@[simp] theorem State.output_out (s : State) (v : Byte) : (s.output v).out = s.out ++ [v] := rfl
@[simp] theorem State.output_reg (s : State) (v : Byte) (i : Fin Config.nregs) : (s.output v).reg i = s.reg i := rfl
@[simp] theorem State.output_sp (s : State) (v : Byte) : (s.output v).sp = s.sp := rfl

/-! ### `setFlags` -/

@[simp] theorem State.setFlags_regs (s : State) (lge : BitVec 3) : (s.setFlags lge).regs = s.regs := rfl
@[simp] theorem State.setFlags_pc (s : State) (lge : BitVec 3) : (s.setFlags lge).pc = s.pc := rfl
@[simp] theorem State.setFlags_fl (s : State) (lge : BitVec 3) : (s.setFlags lge).fl = lge.setWidth 8 := rfl
@[simp] theorem State.setFlags_run (s : State) (lge : BitVec 3) : (s.setFlags lge).run = s.run := rfl
@[simp] theorem State.setFlags_mem (s : State) (lge : BitVec 3) : (s.setFlags lge).mem = s.mem := rfl
@[simp] theorem State.setFlags_out (s : State) (lge : BitVec 3) : (s.setFlags lge).out = s.out := rfl
@[simp] theorem State.setFlags_reg (s : State) (lge : BitVec 3) (i : Fin Config.nregs) : (s.setFlags lge).reg i = s.reg i := rfl
@[simp] theorem State.setFlags_sp (s : State) (lge : BitVec 3) : (s.setFlags lge).sp = s.sp := rfl

/-! ### Reading a register after a write of one (R10) -/

/-- The register an operand byte names, read through the accessor or from the vector. -/
theorem State.reg_mk (s : State) (n : Nat) (h : n < 8) : s.reg ⟨n, h⟩ = s.regs[n] := rfl

@[simp] theorem State.setReg_reg_self (s : State) (r : Fin Config.nregs) (v : Byte) : (s.setReg r v).reg r = v := by
  simp [State.reg]

theorem State.setReg_reg_ne (s : State) {r i : Fin Config.nregs} (v : Byte) (h : i ≠ r) :
    (s.setReg r v).reg i = s.reg i := by
  have h' : r.val ≠ i.val := fun e => h (Fin.ext e.symm)
  simp [State.reg, h']

theorem State.setReg_reg (s : State) (r i : Fin Config.nregs) (v : Byte) :
    (s.setReg r v).reg i = if i = r then v else s.reg i := by
  by_cases h : i = r
  · subst h; simp
  · simp [h, State.setReg_reg_ne s v h]

@[simp] theorem State.setReg_sp (s : State) (v : Byte) : (s.setReg Config.spIndex v).sp = v :=
  s.setReg_reg_self Config.spIndex v

/-- Writing back the value a register holds changes nothing. -/
theorem State.setReg_self (s : State) (r : Fin Config.nregs) : s.setReg r (s.reg r) = s := by
  cases s; simp [State.setReg, State.reg]

/-- The last of two writes to one register is the one that counts. -/
theorem State.setReg_setReg (s : State) (r : Fin Config.nregs) (v w : Byte) :
    (s.setReg r v).setReg r w = s.setReg r w := by
  simp [State.setReg]

/-! ### The reset state, field by field (R24) -/

@[simp] theorem State.reset_pc : State.reset.pc = 0 := rfl
@[simp] theorem State.reset_fl : State.reset.fl = 0 := rfl
@[simp] theorem State.reset_run : State.reset.run = .running := rfl
@[simp] theorem State.reset_mem : State.reset.mem = [] := rfl
@[simp] theorem State.reset_out : State.reset.out = [] := rfl
@[simp] theorem State.reset_sp : State.reset.sp = 0xF4 := rfl

end Sys2Proof.Machine
end

