-- ==== Sys2Proof/Laws/Ops.lean ====
section
/-! SUPPORT. One lemma per shared operation that says everything it can do; proofs about instructions cite these. -/

namespace Sys2Proof.Machine

/-! ### Taking and committing a fatal error (R161, R162) -/

@[simp] theorem commit_ok (s t : State) : commit s (.ok t) = .next t := rfl
@[simp] theorem commit_error (s : State) (e : FatalError) : commit s (.error e) = .next { s with run := .faulted e } :=
  rfl

/-- A handler always ends in a next state: its own, or the state it began in with the run state FAULTED. -/
theorem commit_cases (s : State) (r : Except FatalError State) :
    (∃ t, r = .ok t ∧ commit s r = .next t) ∨
      (∃ e, r = .error e ∧ commit s r = .next { s with run := .faulted e }) := by
  cases r with
  | ok t => exact .inl ⟨t, rfl, rfl⟩
  | error e => exact .inr ⟨e, rfl, rfl⟩

/-- What a handler's answer says of its body. -/
theorem commit_eq_next {s u : State} {r : Except FatalError State} (h : commit s r = .next u) :
    r = .ok u ∨ ∃ e, r = .error e ∧ u = { s with run := .faulted e } := by
  rcases commit_cases s r with ⟨t, rfl, ht⟩ | ⟨e, rfl, he⟩
  · left; rw [ht] at h; cases h; rfl
  · right; rw [he] at h; cases h; exact ⟨e, rfl, rfl⟩

/-- Sequencing in a handler: a result comes from a result of the first part. -/
theorem bind_eq_ok {α β : Type} {x : Except FatalError α} {f : α → Except FatalError β} {y : β} :
    (x >>= f) = .ok y ↔ ∃ a, x = .ok a ∧ f a = .ok y := by
  cases x <;> simp [bind, Except.bind]

/-- Sequencing in a handler: a fatal error is the first part's, or the second's. -/
theorem bind_eq_error {α β : Type} {x : Except FatalError α} {f : α → Except FatalError β} {e : FatalError} :
    (x >>= f) = .error e ↔ x = .error e ∨ ∃ a, x = .ok a ∧ f a = .error e := by
  cases x <;> simp [bind, Except.bind]

@[simp] theorem bind_ok {α β : Type} (a : α) (f : α → Except FatalError β) :
    ((.ok a : Except FatalError α) >>= f) = f a := rfl
@[simp] theorem bind_error {α β : Type} (e : FatalError) (f : α → Except FatalError β) :
    ((.error e : Except FatalError α) >>= f) = .error e := rfl

/-! ### Register operands (R12) -/

theorem regOperand_ok {a : Byte} (h : a.toNat < 8) : regOperand a = .ok ⟨a.toNat, h⟩ := dif_pos h
theorem regOperand_error {a : Byte} (h : 7 < a.toNat) : regOperand a = .error (.outOfBoundsRegister a) :=
  dif_neg (Nat.not_lt.mpr h)

theorem regOperand_cases (a : Byte) :
    (∃ h : a.toNat < 8, regOperand a = .ok ⟨a.toNat, h⟩) ∨
      (7 < a.toNat ∧ regOperand a = .error (.outOfBoundsRegister a)) := by
  rcases Nat.lt_or_ge a.toNat 8 with h | h
  · exact .inl ⟨h, regOperand_ok h⟩
  · exact .inr ⟨h, regOperand_error h⟩

/-! ### The memory primitives (R31, R32) -/

theorem memRead_ok {addr : Int} (s : State) (h0 : 0 ≤ addr) (h1 : addr ≤ 255) :
    memRead addr s = .ok (s.mem.read addr.toNat) := if_neg (by omega)
theorem memRead_error {addr : Int} (s : State) (h : addr < 0 ∨ addr > 255) :
    memRead addr s = .error (.outOfBoundsMemory addr) := if_pos h
theorem memWrite_ok {addr : Int} (v : Byte) (s : State) (h0 : 0 ≤ addr) (h1 : addr ≤ 255) :
    memWrite addr v s = .ok { s with mem := s.mem.write addr.toNat v } := if_neg (by omega)
theorem memWrite_error {addr : Int} (v : Byte) (s : State) (h : addr < 0 ∨ addr > 255) :
    memWrite addr v s = .error (.outOfBoundsMemory addr) := if_pos h

/-- A register used as an address is always in range (R33). -/
theorem memRead_byte (v : Byte) (s : State) : memRead v.toNat s = .ok (s.mem.read v.toNat) := by
  have := v.isLt
  rw [memRead_ok s (by omega) (by omega), Int.toNat_natCast]
theorem memWrite_byte (w v : Byte) (s : State) :
    memWrite w.toNat v s = .ok { s with mem := s.mem.write w.toNat v } := by
  have := w.isLt
  rw [memWrite_ok v s (by omega) (by omega), Int.toNat_natCast]

/-- Fetch from an address that leaves room for three bytes (R71). -/
theorem fetch_ok {s : State} (h : s.pc.toNat ≤ 253) :
    fetch s = .ok (s.mem.read s.pc.toNat, s.mem.read (s.pc.toNat + 1), s.mem.read (s.pc.toNat + 2)) := by
  unfold fetch
  rw [memRead_ok s (by omega) (by omega), memRead_ok s (by omega) (by omega), memRead_ok s (by omega) (by omega)]
  rfl

/-- Fetch from the top of memory: the address reported is 256, or the program counter where it is above (R71). -/
theorem fetch_error {s : State} (h : 254 ≤ s.pc.toNat) :
    fetch s = .error (.outOfBoundsMemory (max 256 s.pc.toNat)) := by
  unfold fetch
  by_cases h0 : s.pc.toNat ≤ 255
  · rw [memRead_ok s (by omega) (by omega)]
    by_cases h1 : s.pc.toNat ≤ 254
    · have e : s.pc.toNat = 254 := by omega
      rw [memRead_ok s (by omega) (by omega), memRead_error s (by omega), e]
      rfl
    · have e : s.pc.toNat = 255 := by omega
      rw [memRead_error s (by omega), e]
      rfl
  · rw [memRead_error s (by omega)]
    have e : max (256 : Int) s.pc.toNat = s.pc.toNat := by omega
    rw [e]
    rfl

/-! ### The stack (R100 to R102, R110, R111) -/

/-- The stack pointer after a push. -/
theorem decSp_ok {s : State} (h : 1 ≤ s.sp.toNat) : decSp s = .ok (s.setReg Config.spIndex (s.sp - 1)) := by
  have hs := s.sp.isLt
  have e : BitVec.ofInt 8 (s.sp.toNat - 1) = s.sp - 1 := by
    apply BitVec.eq_of_toNat_eq
    rw [BitVec.toNat_ofInt, BitVec.toNat_sub]
    simp
    omega
  unfold decSp stackPointer
  rw [if_neg (by omega), bind_ok, e]
  rfl

theorem decSp_error {s : State} (h : s.sp.toNat = 0) : decSp s = .error (.outOfBoundsMemory (-1)) := by
  unfold decSp stackPointer
  rw [if_pos (by omega), h]
  rfl

/-- The stack pointer after a pop. -/
theorem incSp_ok {s : State} (h : s.sp.toNat ≤ 254) : incSp s = .ok (s.setReg Config.spIndex (s.sp + 1)) := by
  have e : BitVec.ofInt 8 (s.sp.toNat + 1) = s.sp + 1 := by
    apply BitVec.eq_of_toNat_eq
    rw [BitVec.toNat_ofInt, BitVec.toNat_add]
    simp
    omega
  unfold incSp stackPointer
  rw [if_neg (by omega), bind_ok, e]
  rfl

theorem incSp_error {s : State} (h : s.sp.toNat = 255) : incSp s = .error (.outOfBoundsMemory 256) := by
  unfold incSp stackPointer
  rw [if_pos (by omega), h]
  rfl

@[simp] theorem topOfStack_eq (s : State) : topOfStack s = .ok (s.mem.read s.sp.toNat) := memRead_byte s.sp s

/-- A push from a stack pointer above 0: the value, read after the decrement, lands below the old stack pointer. -/
theorem pushValue_ok (value : State → Byte) {s : State} (h : 1 ≤ s.sp.toNat) :
    pushValue value s =
      .ok { s.setReg Config.spIndex (s.sp - 1) with
            mem := s.mem.write (s.sp - 1).toNat (value (s.setReg Config.spIndex (s.sp - 1))) } := by
  unfold pushValue
  rw [decSp_ok h, bind_ok, State.setReg_sp, memWrite_byte]
  rfl

theorem pushValue_error (value : State → Byte) {s : State} (h : s.sp.toNat = 0) :
    pushValue value s = .error (.outOfBoundsMemory (-1)) := by
  unfold pushValue
  rw [decSp_error h, bind_error]

/-- The address below a stack pointer above 0. -/
theorem sp_sub_one_toNat {s : State} (h : 1 ≤ s.sp.toNat) : (s.sp - 1).toNat = s.sp.toNat - 1 := by
  have := s.sp.isLt
  rw [BitVec.toNat_sub]
  simp
  omega

/-- The byte CALL stores, in every state in which it can execute (R110). -/
theorem returnAddress_toNat {s : State} (h : s.pc.toNat ≤ 253) : (returnAddress s).toNat = s.pc.toNat + 2 := by
  unfold returnAddress
  simp
  omega

/-- A jump target is at most 255: no wrap and no loss (R15). -/
@[simp] theorem zext9_toNat (v : Byte) : (zext9 v).toNat = v.toNat := by
  unfold zext9
  simp
  omega

/-! ### The ALU and the flags (R130, R133) -/

/-- Narrowing the exact sum is addition of words. -/
theorem wrap_add (x y : Byte) : wrap (x.toNat + y.toNat) = x + y := by
  apply BitVec.eq_of_toNat_eq
  simp [wrap]

/-- Narrowing the exact product is multiplication of words. -/
theorem wrap_mul (x y : Byte) : wrap (x.toNat * y.toNat) = x * y := by
  apply BitVec.eq_of_toNat_eq
  simp [wrap]

/-- The three outcomes of a comparison. -/
theorem compareFlags_eq {x y : Byte} (h : x.toNat = y.toNat) : compareFlags x y = 0b001 := if_pos h
theorem compareFlags_gt {x y : Byte} (h : x.toNat > y.toNat) : compareFlags x y = 0b010 := by
  unfold compareFlags
  rw [if_neg (by omega), if_pos h]
theorem compareFlags_lt {x y : Byte} (h : x.toNat < y.toNat) : compareFlags x y = 0b100 := by
  unfold compareFlags
  rw [if_neg (by omega), if_neg (by omega)]

/-- Exactly one of E, G, L (R133). -/
theorem compareFlags_cases (x y : Byte) :
    compareFlags x y = 0b001 ∨ compareFlags x y = 0b010 ∨ compareFlags x y = 0b100 := by
  unfold compareFlags
  split
  · simp
  · split <;> simp

/-- What the ALU instructions answer when both operands name registers. -/
theorem aluInstr_ok (op : AluOp) {a b : Byte} (s : State) (ha : a.toNat < 8) (hb : b.toNat < 8) :
    aluInstr op a b s =
      .ok ((aluWriteback ⟨a.toNat, ha⟩ (alu op (s.reg ⟨a.toNat, ha⟩) (s.reg ⟨b.toNat, hb⟩)) s).advance 3) := by
  unfold aluInstr
  rw [regOperand_ok ha, regOperand_ok hb]
  rfl

/-- What they answer when one does not: `a` is reported before `b` (R158). -/
theorem aluInstr_error_a (op : AluOp) {a : Byte} (b : Byte) (s : State) (ha : 7 < a.toNat) :
    aluInstr op a b s = .error (.outOfBoundsRegister a) := by
  unfold aluInstr
  rw [regOperand_error ha, bind_error]
theorem aluInstr_error_b (op : AluOp) {a b : Byte} (s : State) (ha : a.toNat < 8) (hb : 7 < b.toNat) :
    aluInstr op a b s = .error (.outOfBoundsRegister b) := by
  unfold aluInstr
  rw [regOperand_ok ha, bind_ok, regOperand_error hb, bind_error]

/-! ### Jumps (R120 to R122) -/

theorem jumpTo_ok {a : Byte} (s : State) (ha : a.toNat < 8) :
    jumpTo a s = .ok (s.setPc (zext9 (s.reg ⟨a.toNat, ha⟩))) := by
  unfold jumpTo
  rw [regOperand_ok ha]
  rfl
theorem jumpTo_error {a : Byte} (s : State) (ha : 7 < a.toNat) : jumpTo a s = .error (.outOfBoundsRegister a) := by
  unfold jumpTo
  rw [regOperand_error ha, bind_error]
@[simp] theorem jumpIf_true (a : Byte) (s : State) : jumpIf true a s = jumpTo a s := rfl
@[simp] theorem jumpIf_false (a : Byte) (s : State) : jumpIf false a s = .ok (s.advance 2) := rfl

/-! ### Accesses -/

/-- A push that the range rule lets through makes one write, below the stack pointer. -/
theorem pushAccesses_ok (value : State → Byte) {s : State} (h : 1 ≤ s.sp.toNat) :
    pushAccesses value s = [.write (s.sp.toNat - 1) (value (s.setReg Config.spIndex (s.sp - 1)))] := by
  simp only [pushAccesses, decSp_ok h, State.setReg_sp, sp_sub_one_toNat h]

/-- A push that the range rule stops makes no access. -/
theorem pushAccesses_error (value : State → Byte) {s : State} (h : s.sp.toNat = 0) : pushAccesses value s = [] := by
  simp only [pushAccesses, decSp_error h]

/-- Below the top of memory fetch makes all three reads. -/
theorem fetchAccesses_ok {s : State} (h : s.pc.toNat ≤ 253) :
    fetchAccesses s = [.read s.pc.toNat, .read (s.pc.toNat + 1), .read (s.pc.toNat + 2)] := by
  have h0 : s.pc.toNat < 256 := by omega
  have h1 : s.pc.toNat + 1 < 256 := by omega
  have h2 : s.pc.toNat + 2 < 256 := by omega
  simp [fetchAccesses, h0, h1, h2]

/-- The accesses of a running step below the top of memory. -/
theorem stepAccesses_ok {s : State} (hr : s.run = .running) (h : s.pc.toNat ≤ 253) :
    stepAccesses s = fetchAccesses s ++
      match decode (s.mem.read s.pc.toNat) (s.mem.read (s.pc.toNat + 1)) (s.mem.read (s.pc.toNat + 2)) with
      | .error _ => []
      | .ok i => handlerAccesses i s := by
  unfold stepAccesses
  cases hd : decode (s.mem.read s.pc.toNat) (s.mem.read (s.pc.toNat + 1)) (s.mem.read (s.pc.toNat + 2)) <;>
    simp only [hr, fetch_ok h, hd]

end Sys2Proof.Machine
end

