-- ==== Sys2Proof/Laws/PerInstr.lean ====
section
/-! SUPPORT. What is true of each instruction as syntax, one lemma per constructor (LAWS.json names the family). -/

namespace Sys2Proof.Laws.EncodedShape

/-- The encoding of an instruction has the instruction's length, 1 to 3 bytes (R50); its first byte is the opcode
(R53); the opcode's PCSET bit is set exactly for the instructions that write PC themselves and its ALU bit exactly
for the three ALU instructions (R51, R58). -/
def Statement (i : Instr) : Prop :=
  (encode i).length = i.length ∧ 1 ≤ i.length ∧ i.length ≤ 3 ∧ (encode i).head? = some i.opcode ∧
    setsPc i.opcode = i.selfSetting ∧ isAlu i.opcode = i.onAlu

theorem hlt : Statement (.hlt) := by
  refine ⟨rfl, ?_, ?_, rfl, ?_, ?_⟩ <;>
    simp [Instr.length, Instr.format, Format.operands, setsPc, isAlu, Instr.opcode,
      Instr.selfSetting, Instr.onAlu]
theorem ldi (a b : Byte) : Statement (.ldi a b) := by
  refine ⟨rfl, ?_, ?_, rfl, ?_, ?_⟩ <;>
    simp [Instr.length, Instr.format, Format.operands, setsPc, isAlu, Instr.opcode,
      Instr.selfSetting, Instr.onAlu]
theorem prn (a : Byte) : Statement (.prn a) := by
  refine ⟨rfl, ?_, ?_, rfl, ?_, ?_⟩ <;>
    simp [Instr.length, Instr.format, Format.operands, setsPc, isAlu, Instr.opcode,
      Instr.selfSetting, Instr.onAlu]
theorem push (a : Byte) : Statement (.push a) := by
  refine ⟨rfl, ?_, ?_, rfl, ?_, ?_⟩ <;>
    simp [Instr.length, Instr.format, Format.operands, setsPc, isAlu, Instr.opcode,
      Instr.selfSetting, Instr.onAlu]
theorem pop (a : Byte) : Statement (.pop a) := by
  refine ⟨rfl, ?_, ?_, rfl, ?_, ?_⟩ <;>
    simp [Instr.length, Instr.format, Format.operands, setsPc, isAlu, Instr.opcode,
      Instr.selfSetting, Instr.onAlu]
theorem call (a : Byte) : Statement (.call a) := by
  refine ⟨rfl, ?_, ?_, rfl, ?_, ?_⟩ <;>
    simp [Instr.length, Instr.format, Format.operands, setsPc, isAlu, Instr.opcode,
      Instr.selfSetting, Instr.onAlu]
theorem ret : Statement (.ret) := by
  refine ⟨rfl, ?_, ?_, rfl, ?_, ?_⟩ <;>
    simp [Instr.length, Instr.format, Format.operands, setsPc, isAlu, Instr.opcode,
      Instr.selfSetting, Instr.onAlu]
theorem jmp (a : Byte) : Statement (.jmp a) := by
  refine ⟨rfl, ?_, ?_, rfl, ?_, ?_⟩ <;>
    simp [Instr.length, Instr.format, Format.operands, setsPc, isAlu, Instr.opcode,
      Instr.selfSetting, Instr.onAlu]
theorem jeq (a : Byte) : Statement (.jeq a) := by
  refine ⟨rfl, ?_, ?_, rfl, ?_, ?_⟩ <;>
    simp [Instr.length, Instr.format, Format.operands, setsPc, isAlu, Instr.opcode,
      Instr.selfSetting, Instr.onAlu]
theorem jne (a : Byte) : Statement (.jne a) := by
  refine ⟨rfl, ?_, ?_, rfl, ?_, ?_⟩ <;>
    simp [Instr.length, Instr.format, Format.operands, setsPc, isAlu, Instr.opcode,
      Instr.selfSetting, Instr.onAlu]
theorem add (a b : Byte) : Statement (.add a b) := by
  refine ⟨rfl, ?_, ?_, rfl, ?_, ?_⟩ <;>
    simp [Instr.length, Instr.format, Format.operands, setsPc, isAlu, Instr.opcode,
      Instr.selfSetting, Instr.onAlu]
theorem mul (a b : Byte) : Statement (.mul a b) := by
  refine ⟨rfl, ?_, ?_, rfl, ?_, ?_⟩ <;>
    simp [Instr.length, Instr.format, Format.operands, setsPc, isAlu, Instr.opcode,
      Instr.selfSetting, Instr.onAlu]
theorem cmp (a b : Byte) : Statement (.cmp a b) := by
  refine ⟨rfl, ?_, ?_, rfl, ?_, ?_⟩ <;>
    simp [Instr.length, Instr.format, Format.operands, setsPc, isAlu, Instr.opcode,
      Instr.selfSetting, Instr.onAlu]

end Sys2Proof.Laws.EncodedShape
end

