-- ==== Sys2Proof/Tests/Slice0.lean ====
section
/-! SUPPORT. Tests: well-formedness, the decoding of every row of the opcode table, single steps whose expected results are
the spec's own vectors (95_test_vectors.md, named V-…), and one witness for each statement that has hypotheses. -/

namespace Sys2Proof.Tests

open Sys2Proof Sys2Proof.Machine

/-! ### Helpers -/

/-- The reset state with a program counter, with bytes stored at it. -/
def at_ (pc : PcWord) (bytes : List Byte) : State :=
  { State.reset with pc := pc, mem := Memory.storeFrom [] pc.toNat bytes }

/-- Registers R0, R1, R2 and R7 set. -/
def withRegs (r0 r1 r2 r7 : Byte) (s : State) : State := { s with regs := #v[r0, r1, r2, 0, 0, 0, 0, r7] }

/-- The state after one step, if a step is taken. -/
def after (s : State) : Option State :=
  match step s with
  | .next t => some t
  | .fault _ | .refused _ => none

theorem step_of_after {s t : State} (h : after s = some t) : step s = .next t := by
  unfold after at h
  split at h
  · rename_i u hu
    cases h
    exact hu
  · cases h
  · cases h

/-- A step is taken and the state after it has the named parts. -/
def gives {α : Type} [DecidableEq α] (s : State) (part : State → α) (v : α) : Bool :=
  (after s).map part = some v

/-! ### Well-formedness: an ill-formed term for each operand that is checked (R12, R56) -/

theorem test_wf_ldi_a : (Instr.ldi 8 0).wellFormed = false := by decide
theorem test_wf_prn_a : (Instr.prn 0xC8).wellFormed = false := by decide
theorem test_wf_push_a : (Instr.push 9).wellFormed = false := by decide
theorem test_wf_pop_a : (Instr.pop 8).wellFormed = false := by decide
theorem test_wf_call_a : (Instr.call 8).wellFormed = false := by decide
theorem test_wf_jmp_a : (Instr.jmp 8).wellFormed = false := by decide
theorem test_wf_jeq_a : (Instr.jeq 9).wellFormed = false := by decide
theorem test_wf_jne_a : (Instr.jne 9).wellFormed = false := by decide
theorem test_wf_add_a : (Instr.add 8 0).wellFormed = false := by decide
theorem test_wf_add_b : (Instr.add 0 9).wellFormed = false := by decide
theorem test_wf_mul_a : (Instr.mul 8 0).wellFormed = false := by decide
theorem test_wf_mul_b : (Instr.mul 0 8).wellFormed = false := by decide
theorem test_wf_cmp_a : (Instr.cmp 255 0).wellFormed = false := by decide
theorem test_wf_cmp_b : (Instr.cmp 0 8).wellFormed = false := by decide
/-- LDI's immediate is not a register index (R158). -/
theorem test_wf_ldi_immediate : (Instr.ldi 7 255).wellFormed = true := by decide

/-! ### Decoding: each row of R58, its opcode written bit by bit, operand bytes in the later bytes -/

theorem test_decode_hlt : decodeTableWord 8 0b00000001 = some .hlt := by decide
theorem test_decode_ldi : decodeTableWord 24 0b00001000_00000011_10000010 = some (.ldi 3 8) := by decide
theorem test_decode_prn : decodeTableWord 16 0b00000101_01000111 = some (.prn 5) := by decide
theorem test_decode_push : decodeTableWord 16 0b00000111_01000101 = some (.push 7) := by decide
theorem test_decode_pop : decodeTableWord 16 0b00000010_01000110 = some (.pop 2) := by decide
theorem test_decode_call : decodeTableWord 16 0b00000010_01010000 = some (.call 2) := by decide
theorem test_decode_ret : decodeTableWord 8 0b00010001 = some .ret := by decide
theorem test_decode_jmp : decodeTableWord 16 0b11111111_01010100 = some (.jmp 255) := by decide
theorem test_decode_jeq : decodeTableWord 16 0b00000010_01010101 = some (.jeq 2) := by decide
theorem test_decode_jne : decodeTableWord 16 0b00000010_01010110 = some (.jne 2) := by decide
theorem test_decode_add : decodeTableWord 24 0b00000001_00000000_10100000 = some (.add 0 1) := by decide
theorem test_decode_mul : decodeTableWord 24 0b00000001_00000110_10100010 = some (.mul 6 1) := by decide
theorem test_decode_cmp : decodeTableWord 24 0b00000100_00000011_10100111 = some (.cmp 3 4) := by decide
/-- Bytes that are no part of the instruction are ignored (V-HLT-5). -/
theorem test_decode_unused : decode 0x01 0xFF 0xFF = .ok .hlt := rfl
/-- V-ILL-1, V-ILL-2, V-ILL-9. -/
theorem test_decode_rejects :
    decode 0x00 0 0 = .error (.unknownOpcode 0x00) ∧ decode 0x10 0 0 = .error (.unknownOpcode 0x10) ∧
      decode 0xB0 0 0 = .error (.unsupportedOperation 0xB0) := ⟨rfl, rfl, rfl⟩
/-- R63: "`LDI Ra, b` is bytes `0x82, a, b`"; an index above 7 has no spelling. -/
theorem test_assembly : (Instr.ldi 0 8).assembly = some "LDI R0,8" ∧ (Instr.mul 0 1).assembly = some "MUL R0,R1" ∧
    Instr.assembly (.prn 8) = none := by decide

/-! ### Single steps, with the spec's expected results -/

/-- V-HLT-2. -/
theorem test_hlt_at_253 : gives (at_ 253 [0x01]) (fun t => (t.run, t.pc)) (.halted, 254) = true := by decide
/-- V-HLT-3. -/
theorem test_hlt_at_254 : gives (at_ 254 [0x01]) (fun t => (t.run, t.pc)) (.faulted (.outOfBoundsMemory 256), 254) = true := by
  decide
/-- V-LDI-4. -/
theorem test_ldi_r7 : gives (at_ 0 [0x82, 0x07, 0x80]) (fun t => (t.sp, t.pc)) (0x80, 3) = true := by decide
/-- V-LDI-5. -/
theorem test_ldi_index_8 : gives (at_ 0 [0x82, 0x08, 0x05]) id
    { at_ 0 [0x82, 0x08, 0x05] with run := .faulted (.outOfBoundsRegister 8) } = true := by decide
/-- V-PRN-2. -/
theorem test_prn_r7 : gives (at_ 0 [0x47, 0x07]) (fun t => (t.out, t.pc)) ([244], 2) = true := by decide
/-- V-PRN-4. -/
theorem test_prn_index_200 : gives (at_ 0 [0x47, 0xC8]) (fun t => (t.out, t.run))
    ([], .faulted (.outOfBoundsRegister 200)) = true := by decide
/-- V-STK-2: the push overwrites the PUSH's own opcode byte. -/
theorem test_push_over_itself : gives (withRegs 0xAB 0 0 1 (at_ 0 [0x45, 0x00])) (fun t => (t.sp, t.mem, t.pc))
    (0, [(0, 0xAB)], 2) = true := by decide
/-- V-STK-4. -/
theorem test_push_r7 : gives (at_ 0 [0x45, 0x07]) (fun t => (t.sp, t.mem.read 0xF3)) (0xF3, 0xF3) = true := by decide
/-- V-STK-7, with the cell at 255 zero. -/
theorem test_pop_at_255 : gives (withRegs 0 0 0 255 (at_ 0 [0x46, 0x00])) (fun t => (t.sp, t.run))
    (255, .faulted (.outOfBoundsMemory 256)) = true := by decide
/-- V-STK-8. -/
theorem test_pop_r7 : gives { at_ 0 [0x46, 0x07] with mem := [(0, 0x46), (1, 7), (0xF4, 0x20)] } (fun t => (t.sp, t.pc))
    (0x21, 2) = true := by decide
/-- V-SUB-2. -/
theorem test_call_at_253 : gives (withRegs 0 0x30 0 0xF4 (at_ 253 [0x50, 0x01]))
    (fun t => (t.sp, t.mem.read 0xF3, t.pc)) (0xF3, 0xFF, 0x30) = true := by decide
/-- V-SUB-4. -/
theorem test_call_r7 : gives (at_ 0 [0x50, 0x07]) (fun t => (t.sp, t.mem.read 0xF3, t.pc)) (0xF3, 2, 0xF3) = true := by
  decide
/-- V-SUB-8. -/
theorem test_ret_at_254 : gives { withRegs 0 0 0 254 (at_ 0 [0x11]) with mem := [(0, 0x11), (0xFE, 9)] }
    (fun t => (t.sp, t.pc)) (255, 9) = true := by decide
/-- V-SUB-9, with the cell at 255 zero. -/
theorem test_ret_at_255 : gives (withRegs 0 0 0 255 (at_ 0 [0x11])) (fun t => (t.pc, t.run))
    (0, .faulted (.outOfBoundsMemory 256)) = true := by decide
/-- V-JMP-2. -/
theorem test_jmp_to_254 : gives (withRegs 0 0xFE 0 0xF4 (at_ 0 [0x54, 0x01])) (fun t => (t.pc, t.run)) (0xFE, .running) = true := by
  decide
/-- V-JEQ-1. -/
theorem test_jeq_taken : gives { withRegs 0 0 0x40 0xF4 (at_ 0 [0x55, 0x02]) with fl := 0x01 } (fun t => t.pc) 0x40 = true := by
  decide
/-- V-JEQ-5: an index above 7 is not checked when the jump is not taken. -/
theorem test_jeq_not_taken_index_9 : gives (at_ 0 [0x55, 0x09]) (fun t => (t.pc, t.run)) (2, .running) = true := by decide
/-- V-JNE-4: taken before any CMP. -/
theorem test_jne_after_reset : gives (withRegs 0 0 0x40 0xF4 (at_ 0 [0x56, 0x02])) (fun t => t.pc) 0x40 = true := by decide
/-- V-JNE-6. -/
theorem test_jne_taken_index_9 : gives { at_ 0 [0x56, 0x09] with fl := 0x04 } (fun t => t.run)
    (.faulted (.outOfBoundsRegister 9)) = true := by decide
/-- V-ADD-1: FL is kept. -/
theorem test_add_keeps_flags : gives { withRegs 1 2 0 0xF4 (at_ 0 [0xA0, 0x00, 0x01]) with fl := 0x04 }
    (fun t => (t.reg 0, t.fl, t.pc)) (3, 0x04, 3) = true := by decide
/-- V-ADD-5: source and destination the same, with a wrap. -/
theorem test_add_doubles : gives (withRegs 0x90 0 0 0xF4 (at_ 0 [0xA0, 0x00, 0x00])) (fun t => t.reg 0) 0x20 = true := by
  decide
/-- S1, the source's own example. -/
theorem test_mul_8_9 : gives (withRegs 8 9 0 0xF4 (at_ 6 [0xA2, 0x00, 0x01])) (fun t => (t.reg 0, t.pc)) (72, 9) = true := by
  decide
/-- V-MUL-5. -/
theorem test_mul_square_wraps : gives (withRegs 0 0 44 0xF4 (at_ 0 [0xA2, 0x02, 0x02])) (fun t => t.reg 2) 0x90 = true := by
  decide
/-- V-CMP-2: unsigned. -/
theorem test_cmp_unsigned : gives (withRegs 128 127 0 0xF4 (at_ 0 [0xA7, 0x00, 0x01])) (fun t => (t.fl, t.pc)) (0x02, 3) = true := by
  decide
/-- V-CMP-3. -/
theorem test_cmp_less : gives (withRegs 0 255 0 0xF4 (at_ 0 [0xA7, 0x00, 0x01])) (fun t => t.fl) 0x04 = true := by decide
/-- V-ILL-8. -/
theorem test_unsupported : gives (at_ 0 [0xA1]) (fun t => (t.run, t.pc)) (.faulted (.unsupportedOperation 0xA1), 0) = true := by
  decide
/-- V-FET-1: the fetch fault comes before the opcode is looked at. -/
theorem test_fetch_first : gives (at_ 254 [0x00]) (fun t => t.run) (.faulted (.outOfBoundsMemory 256)) = true := by decide
/-- P6, last sentence: the empty image faults on the first step. -/
theorem test_empty_image : gives State.reset (fun t => t.run) (.faulted (.unknownOpcode 0x00)) = true := by decide
/-- R187: the image from address 0. -/
theorem test_image : (State.resetWith [0x54, 0x00]).map (fun s => s.mem) = some [(0, 0x54)] := by decide
/-- R26: address 256 is 0x100 and address -1 is 0x1FF. -/
theorem test_fault_info :
    statusPorts { State.reset with run := .faulted (.outOfBoundsMemory 256) } = ⟨false, true, 1, some 0x100⟩ ∧
      statusPorts { State.reset with run := .faulted (.outOfBoundsMemory (-1)) } = ⟨false, true, 1, some 0x1FF⟩ := by decide
/-- R92: "host prints `72` and a newline". -/
theorem test_host_line : hostLine 72 = "72\n" := by decide

/-! ### Witnesses: a state and operands that meet the hypotheses of a statement, clause by clause, at boundary values -/

theorem witness_StepRunsTheDecodedInstruction : (at_ 253 [0x01]).run = .running ∧ (at_ 253 [0x01]).pc.toNat ≤ 253 ∧
    decode ((at_ 253 [0x01]).mem.read 253) ((at_ 253 [0x01]).mem.read 254) ((at_ 253 [0x01]).mem.read 255) = .ok .hlt :=
  ⟨rfl, by decide, rfl⟩
theorem witness_StepRunsTheInstructionStoredAtPc :
    (at_ 253 [0xA0, 0, 1]).run = .running ∧ (at_ 253 [0xA0, 0, 1]).pc.toNat ≤ 253 ∧
      ∀ k (h : k < (encode (.add 0 1)).length), (at_ 253 [0xA0, 0, 1]).mem.read (253 + k) = (encode (.add 0 1))[k] := by
  decide
theorem witness_StepTakenIffRunning :
    State.reset.run = .running ∧ ({ State.reset with run := .halted } : State).run ≠ .running := by decide
theorem witness_FetchFaultsAtTheTopOfMemory :
    (at_ 254 []).run = .running ∧ 254 ≤ (at_ 254 []).pc.toNat ∧ 254 ≤ (at_ 256 []).pc.toNat ∧ 254 ≤ (at_ 511 []).pc.toNat := by
  decide
theorem witness_AluDispatchByExactOpcode :
    (at_ 253 [0xA0]).run = .running ∧ (at_ 253 [0xA0]).pc.toNat ≤ 253 ∧
      ([0xA0, 0xA2, 0xA7, 0x20, 0xFF] : List Byte).all (fun ir => ir.getLsbD 5 && (at_ 253 [ir]).mem.read 253 == ir) ∧
      (0x20 : Byte) ∉ ([0xA0, 0xA2, 0xA7] : List Byte) := by decide
theorem witness_TableDispatchByExactOpcode :
    ([0x01, 0x82, 0x47, 0x45, 0x46, 0x50, 0x11, 0x54, 0x55, 0x56, 0x00, 0x10] : List Byte).all
        (fun ir => !ir.getLsbD 5 && (at_ 253 [ir]).mem.read 253 == ir) ∧
      (0x00 : Byte) ∉ ([0x01, 0x82, 0x47, 0x45, 0x46, 0x50, 0x11, 0x54, 0x55, 0x56] : List Byte) := by decide
theorem witness_HltHaltsTheMachine : ∃ t, State.reset.run = .running ∧ exec .hlt State.reset = .next t ∧ t.run = .halted :=
  ⟨_, rfl, rfl, rfl⟩
/-- The index clauses of the statements about LDI, PRN, PUSH, POP, CALL, JMP, JEQ, JNE, ADD, MUL, CMP, of the sequences of
two instructions, and of MemoryAccessesOfAStep: 7 names a register, 8 does not. -/
theorem witness_register_indices : (7 : Byte).toNat < 8 ∧ 7 < (8 : Byte).toNat := by decide
theorem witness_PushStoresBelowTheStackPointer :
    1 ≤ (withRegs 0 0 0 1 State.reset).sp.toNat ∧ (withRegs 0 0 0 0 State.reset).sp = 0 := by decide
theorem witness_PopLoadsFromTheStackPointer :
    (withRegs 0 0 0 254 State.reset).sp.toNat ≤ 254 ∧ (0 : Byte) ≠ 7 ∧ (6 : Byte) ≠ 7 ∧
      ((at_ 0xF4 [254]).mem.read (at_ 0xF4 [254]).sp.toNat).toNat ≤ 254 ∧
      (withRegs 0 0 0 255 State.reset).sp = 255 ∧ (at_ 0xF4 [255]).mem.read (at_ 0xF4 [255]).sp.toNat = 255 := by decide
theorem witness_CallPushesTheReturnAddress :
    (at_ 253 []).pc.toNat ≤ 253 ∧ 1 ≤ (withRegs 0 0 0 1 (at_ 253 [])).sp.toNat ∧ (withRegs 0 0 0 0 (at_ 253 [])).sp = 0 := by
  decide
theorem witness_RetPopsTheProgramCounter :
    (withRegs 0 0 0 254 State.reset).sp.toNat ≤ 254 ∧ (withRegs 0 0 0 255 State.reset).sp = 255 := by decide
/-- JeqBranchesOnEqualSet and JneBranchesOnEqualClear. -/
theorem witness_conditional_jumps :
    ({ State.reset with fl := 0x01 } : State).fl.getLsbD 0 = true ∧ State.reset.fl.getLsbD 0 = false := by decide
/-- CmpSetsExactlyOneFlag, and the two cases of CompareDecidesTheConditionalJumps. -/
theorem witness_CmpSetsExactlyOneFlag :
    (State.reset.regs[0]).toNat = (State.reset.regs[6]).toNat ∧ (State.reset.regs[7]).toNat > (State.reset.regs[0]).toNat ∧
      (State.reset.regs[0]).toNat < (State.reset.regs[7]).toNat := by decide
theorem witness_PushThenPopMoves :
    1 ≤ (withRegs 254 0 0 1 State.reset).sp.toNat ∧
      (0 : Byte) = (if (7 : Byte) = 7 then (withRegs 254 0 0 1 State.reset).sp - 1 else 0) ∧ (0 : Byte) ≠ 255 ∧
      (254 : Byte) = (withRegs 254 0 0 1 State.reset).regs[0] ∧ (254 : Byte) ≠ 255 := by decide
theorem witness_CallThenRetResumesAfterTheCall :
    1 ≤ (withRegs 0 0 0 1 (at_ 253 [])).sp.toNat ∧ (withRegs 0 0 0 1 (at_ 253 [])).pc.toNat ≤ 253 := by decide
theorem witness_PushedOpcodeIsFetchedNext :
    let s := withRegs 1 0 0 254 (at_ 251 [0x45, 0x00, 0x00])
    s.run = .running ∧ s.pc.toNat ≤ 251 ∧ s.mem.read s.pc.toNat = 0x45 ∧ s.mem.read (s.pc.toNat + 1) = 0 ∧
      s.sp.toNat = s.pc.toNat + 3 ∧ s.regs[0] = 0x01 := by decide
theorem witness_MemoryPrimitives : ((-1 : Int) < 0) ∧ ((256 : Int) > 255) ∧ ((0 : Int) ≤ 255) ∧ ((0 : Int) ≤ 0) ∧
    State.reset.mem.wf = true ∧ (254 : Int) ≠ 255 := by decide
theorem witness_RegisterFileHoldsWhatIsWritten : (6 : Fin 8) ≠ 7 := by decide
/-- One running state below the top of memory, with bit E clear, and one with it set; for each clause an instruction that
raises no fatal error there. A jump not taken has an operand byte that names no register. -/
theorem witness_ProgramCounterMovement :
    let s := at_ 253 []
    let e : State := { at_ 253 [] with fl := 0x01 }
    let completes := fun (i : Instr) (u : State) => ∃ t, exec i u = .next t ∧ ∀ x, t.run ≠ .faulted x
    s.pc.toNat ≤ 253 ∧ s.run = .running ∧ s.fl.getLsbD 0 = false ∧ e.fl.getLsbD 0 = true ∧
      (∀ i ∈ [Instr.hlt, .prn 7, .push 7, .pop 0, .ldi 7 0, .add 7 7, .mul 7 7, .cmp 7 7, .call 7, .ret, .jmp 7, .jne 7,
        .jeq 8], completes i s) ∧ completes (.jeq 7) e ∧ completes (.jne 8) e ∧
      setsPc Instr.hlt.opcode = false ∧ setsPc Instr.ret.opcode = true := by
  refine ⟨by decide, rfl, rfl, rfl, ?_, ⟨_, rfl, nofun⟩, ⟨_, rfl, nofun⟩, rfl, rfl⟩
  simp only [List.forall_mem_cons]
  exact ⟨⟨_, rfl, nofun⟩, ⟨_, rfl, nofun⟩, ⟨_, rfl, nofun⟩, ⟨_, rfl, nofun⟩, ⟨_, rfl, nofun⟩, ⟨_, rfl, nofun⟩,
    ⟨_, rfl, nofun⟩, ⟨_, rfl, nofun⟩, ⟨_, rfl, nofun⟩, ⟨_, rfl, nofun⟩, ⟨_, rfl, nofun⟩, ⟨_, rfl, nofun⟩, ⟨_, rfl, nofun⟩, nofun⟩
theorem witness_OnlyCmpWritesTheFlags :
    ∃ t, step (at_ 253 [0xA7, 0x00, 0x00]) = .next t ∧ t.fl ≠ (at_ 253 [0xA7, 0x00, 0x00]).fl :=
  ⟨{ at_ 253 [0xA7, 0x00, 0x00] with fl := 0x01, pc := 256 }, step_of_after (by decide), by decide⟩
theorem witness_OnlyTheEqualFlagIsRead :
    (∃ t, exec (.jeq 0) State.reset = .next t) ∧ (0x06 : Byte).getLsbD 0 = State.reset.fl.getLsbD 0 ∧
      (∀ a b, Instr.jeq 0 ≠ .cmp a b) ∧ (∃ t, exec (.cmp 7 7) State.reset = .next t) :=
  ⟨⟨_, rfl⟩, rfl, nofun, ⟨_, rfl⟩⟩
theorem witness_OnlyPushAndCallWriteMemory :
    (∃ t, step (at_ 253 [0x45, 0x07]) = .next t ∧ t.mem.read 0xF3 ≠ (at_ 253 [0x45, 0x07]).mem.read 0xF3) ∧
      (∃ t, step (at_ 253 [0x50, 0x00]) = .next t ∧ t.mem.read 0xF3 ≠ (at_ 253 [0x50, 0x00]).mem.read 0xF3) :=
  ⟨⟨_, step_of_after (s := at_ 253 [0x45, 0x07]) (t := (at_ 255 []).setReg 7 0xF3 |> fun t =>
      { t with mem := [(0xF3, 0xF3), (253, 0x45), (254, 0x07)] }) (by decide), by decide⟩,
    ⟨_, step_of_after (s := at_ 253 [0x50, 0x00]) (t := (at_ 0 []).setReg 7 0xF3 |> fun t =>
      { t with mem := [(0xF3, 0xFF), (253, 0x50)] }) (by decide), by decide⟩⟩
theorem witness_RegistersOutsideTheTableAreKept :
    (∃ t, exec (.pop 0) State.reset = .next t) ∧ (6 : Fin 8).val ∉ writtenRegs (.pop 0) := ⟨⟨_, rfl⟩, by decide⟩
theorem witness_OnlyPrnWritesTheOutput :
    ∃ t, step (at_ 253 [0x47, 0x07]) = .next t ∧ t.out ≠ (at_ 253 [0x47, 0x07]).out :=
  ⟨{ at_ 253 [0x47, 0x07] with out := [0xF4], pc := 255 }, step_of_after (by decide), by decide⟩
theorem witness_OnlyTheRegistersOfTheTableAreRead :
    (∃ t, exec (.pop 0) State.reset = .next t) ∧ (6 : Fin 8).val ∉ readRegs (.pop 0) State.reset ∧
      (6 : Fin 8).val ∉ writtenRegs (.pop 0) ∧ (0 : Fin 8).val ∉ readRegs (.pop 0) State.reset ∧
      (0 : Fin 8).val ∈ writtenRegs (.pop 0) ∧ handlerError (.pop 0) State.reset = none :=
  ⟨⟨_, rfl⟩, by decide, by decide, by decide, by decide, by decide⟩
/-- Of the clauses of the stack: `sp` 1 and 0; of the fetch reads: bytes at 253 that decode and bytes that do not, and the
program counters above it; of the last: a halted machine. -/
theorem witness_MemoryAccessesOfAStep :
    (∃ t, exec (.push 7) (withRegs 0 0 0 1 (at_ 253 [0x45, 7])) = .next t) ∧
      (∃ t, step (at_ 253 [0x45, 7]) = .next t) ∧
      1 ≤ (withRegs 0 0 0 1 (at_ 253 [])).sp.toNat ∧ (withRegs 0 0 0 0 (at_ 253 [])).sp = 0 ∧
      (at_ 253 []).run = .running ∧ (at_ 253 []).pc.toNat ≤ 253 ∧
      decode ((at_ 253 [0x45, 7]).mem.read 253) ((at_ 253 [0x45, 7]).mem.read 254) ((at_ 253 [0x45, 7]).mem.read 255) =
        .ok (.push 7) ∧
      decode ((at_ 253 [0xA1]).mem.read 253) ((at_ 253 [0xA1]).mem.read 254) ((at_ 253 [0xA1]).mem.read 255) =
        .error (.unsupportedOperation 0xA1) ∧
      (at_ 254 []).pc.toNat = 254 ∧ (at_ 255 []).pc.toNat = 255 ∧ 256 ≤ (at_ 256 []).pc.toNat ∧
      ({ State.reset with run := .halted } : State).run ≠ .running :=
  ⟨⟨_, rfl⟩, ⟨_, rfl⟩, by decide, by decide, rfl, by decide, rfl, rfl, rfl, rfl, by decide, nofun⟩
theorem witness_StatusSignalsReportTheRunState :
    (statusPorts State.reset).fault = false ∧ (statusPorts { State.reset with run := .halted }).halted = true ∧
      ([.outOfBoundsMemory 256, .outOfBoundsMemory (-1), .outOfBoundsRegister 255, .unsupportedOperation 0x20,
        .unknownOpcode 0x00] : List FatalError).map
          (fun e => (statusPorts { State.reset with run := .faulted e }).faultCause) = [1, 1, 2, 3, 4] := by decide
theorem witness_ResetSignalAndLoadPort : State.reset.mem.wf = true ∧ 0 ≠ (255 : Byte).toNat := by decide
theorem witness_FatalErrorChangesOnlyTheRunState :
    ∃ t, step State.reset = .next t ∧ t.run = .faulted (.unknownOpcode 0) := ⟨_, rfl, rfl⟩
theorem witness_HandlersRaiseTheFirstFatalError :
    handlerError (.push 0) (withRegs 0 0 0 0 State.reset) = some (.outOfBoundsMemory (-1)) ∧
      handlerError (.push 9) (withRegs 0 0 0 0 State.reset) = some (.outOfBoundsRegister 9) ∧
      handlerError (.add 8 9) State.reset = some (.outOfBoundsRegister 8) ∧
      handlerError (.jeq 9) State.reset = none := by decide
theorem witness_WellFormedInstructionsIndexWithinBounds :
    (Instr.add 7 7).wellFormed = true ∧ (Instr.add 7 8).wellFormed = false ∧ (∀ a, Instr.add 7 8 ≠ .jeq a) ∧
      (∀ a, Instr.add 7 8 ≠ .jne a) := ⟨rfl, rfl, nofun, nofun⟩
theorem witness_ResetWithAnImage :
    (List.replicate 256 (1 : Byte)).length ≤ 256 ∧ 256 < (List.replicate 257 (1 : Byte)).length := by
  simp only [List.length_replicate]
  decide
theorem witness_StepKeepsTheInvariant :
    (at_ 253 [0x01]).inv = true ∧ ∃ t, step (at_ 253 [0x01]) = .next t := ⟨by decide, _, rfl⟩
theorem witness_EveryReachableStateMeetsTheInvariant : ∃ s, State.resetWith [0x01] = some s := ⟨_, rfl⟩
theorem witness_EndedRunStaysEnded : (runMachine 1 (at_ 0 [0x01])).run ≠ .running := by decide

end Sys2Proof.Tests
end

section
/-! PROOFS. The register file (10_state.md rule R10): what the registers read after reset, and LDI as the instruction
that reaches each of them (41_system_data.md rule R91). -/

namespace Sys2Proof.Machine

/-! ### Register indices as operand bytes, and LDI -/

/-- Every register has an operand byte that names it (R56). -/
@[simp] theorem regOperand_ofNat (r : Fin Config.nregs) : regOperand (BitVec.ofNat 8 r.val) = .ok r := by
  have hr : (BitVec.ofNat 8 r.val).toNat = r.val :=
    Nat.mod_eq_of_lt (r.isLt.trans (by decide))
  rw [regOperand_ok (hr.trans_lt r.isLt)]
  simp only [hr]

/-- LDI under an index that names a register writes the immediate and moves past its three bytes (R91). -/
theorem exec_ldi_ok {a : Byte} {r : Fin Config.nregs} (b : Byte) (s : State) (h : regOperand a = .ok r) :
    exec (.ldi a b) s = .next ((s.setReg r b).advance 3) := by
  simp only [exec, execLdi, h, immOperand, bind_ok, pure, Except.pure, commit_ok]

/-! ### The register file after reset and after a write (R10) -/

/-- The registers after reset (R10, R24): the stack pointer alone is not zero. -/
theorem State.reset_reg (r : Fin 8) : State.reset.reg r = if r = 7 then 0xF4 else 0x00 := by
  fin_cases r <;> rfl

/-- Settles O29: the reset values register by register; a write through `setReg` is read back and changes no other
register; LDI of index `r` ends in that same `setReg`, and moving the program counter keeps every register. -/
theorem registerFileHoldsWhatIsWritten : Obligations.RegisterFileHoldsWhatIsWritten := by
  refine ⟨State.reset_reg, fun s r v => ⟨⟨State.setReg_reg_self s r v, fun q hq => State.setReg_reg_ne s v hq⟩, ?_⟩⟩
  refine ⟨(s.setReg r v).advance 3, exec_ldi_ok v s (regOperand_ofNat r), ?_, fun q hq => ?_⟩
  · rw [State.advance_reg, State.setReg_reg_self]
  · rw [State.advance_reg, State.setReg_reg_ne s v hq]

end Sys2Proof.Machine
end

section
/-! PROOFS. Dispatch (40_execution_loop.md rules R72 to R74): a step from its fetched bytes, and what the two
dispatchers answer for a byte that is none of their opcodes. -/

namespace Sys2Proof.Machine

/-! ### The step from its three fetched bytes (R71, R77) -/

/-- Fetch yields the three bytes that stand at an address with room for them (R71). -/
theorem fetch_of_reads {s : State} {ir a b : Byte} (hpc : s.pc.toNat ≤ 253) (hir : s.mem.read s.pc.toNat = ir)
    (ha : s.mem.read (s.pc.toNat + 1) = a) (hb : s.mem.read (s.pc.toNat + 2) = b) : fetch s = .ok (ir, a, b) := by
  rw [fetch_ok hpc, hir, ha, hb]

/-- Fetched bytes that decode run their instruction. -/
theorem step_of_decode_ok {s : State} {ir a b : Byte} {i : Instr} (hrun : s.run = .running)
    (hfetch : fetch s = .ok (ir, a, b)) (hdecode : decode ir a b = .ok i) : step s = exec i s := by
  simp only [step, hrun, hfetch, hdecode]

/-- Fetched bytes that do not decode set the run state to the dispatcher's fatal error and change nothing else. -/
theorem step_of_decode_error {s : State} {ir a b : Byte} {r : Reject} (hrun : s.run = .running)
    (hfetch : fetch s = .ok (ir, a, b)) (hdecode : decode ir a b = .error r) :
    step s = .next { s with run := .faulted (rejectError r) } := by
  simp only [step, hrun, hfetch, hdecode, raise]

/-! ### The dispatchers: bit 5 selects one, and each misses on every byte but its opcodes (R72 to R74) -/

/-- A byte with bit 5 set goes to the ALU dispatch (R72). -/
theorem decode_of_bit5_set {ir : Byte} (a b : Byte) (h : ir.getLsbD 5 = true) : decode ir a b = decodeAlu ir a b :=
  if_pos h

/-- A byte with bit 5 clear goes to the lookup table (R72). -/
theorem decode_of_bit5_clear {ir : Byte} (a b : Byte) (h : ir.getLsbD 5 = false) :
    decode ir a b = decodeTable ir a b :=
  if_neg (ne_true_of_eq_false h)

theorem decodeAlu_miss {ir : Byte} (a b : Byte) (h : ir ∉ ([0xA0, 0xA2, 0xA7] : List Byte)) :
    decodeAlu ir a b = .error (.unsupportedOperation ir) := by
  simp only [List.mem_cons, List.not_mem_nil, or_false, not_or] at h
  obtain ⟨hadd, hmul, hcmp⟩ := h
  rw [decodeAlu, if_neg hadd, if_neg hmul, if_neg hcmp]

theorem decodeTable_miss {ir : Byte} (a b : Byte)
    (h : ir ∉ ([0x01, 0x82, 0x47, 0x45, 0x46, 0x50, 0x11, 0x54, 0x55, 0x56] : List Byte)) :
    decodeTable ir a b = .error (.unknownOpcode ir) := by
  simp only [List.mem_cons, List.not_mem_nil, or_false, not_or] at h
  obtain ⟨hhlt, hldi, hprn, hpush, hpop, hcall, hret, hjmp, hjeq, hjne⟩ := h
  rw [decodeTable, if_neg hhlt, if_neg hldi, if_neg hprn, if_neg hpush, if_neg hpop, if_neg hcall, if_neg hret,
    if_neg hjmp, if_neg hjeq, if_neg hjne]

/-! ### Dispatch by the exact opcode value -/

/-- Settles O8: each of the three opcodes decodes to its instruction, by computation on the opcode; any other byte with
bit 5 set misses in the ALU dispatch. -/
theorem aluDispatchByExactOpcode : Obligations.AluDispatchByExactOpcode := by
  intro s hrun hpc ir a b hir ha hb hbit
  have hfetch := fetch_of_reads hpc hir ha hb
  refine ⟨?add, ?mul, ?cmp, fun hmiss => ?other⟩
  case other => exact step_of_decode_error hrun hfetch ((decode_of_bit5_set a b hbit).trans (decodeAlu_miss a b hmiss))
  all_goals rintro rfl; exact step_of_decode_ok hrun hfetch rfl

/-- Settles O9: each of the ten opcodes decodes to its instruction, by computation on the opcode; any other byte with
bit 5 clear misses in the lookup table. -/
theorem tableDispatchByExactOpcode : Obligations.TableDispatchByExactOpcode := by
  intro s hrun hpc ir a b hir ha hb hbit
  have hfetch := fetch_of_reads hpc hir ha hb
  refine ⟨?hlt, ?ldi, ?prn, ?push, ?pop, ?call, ?ret, ?jmp, ?jeq, ?jne, fun hmiss => ?other⟩
  case other =>
    exact step_of_decode_error hrun hfetch ((decode_of_bit5_clear a b hbit).trans (decodeTable_miss a b hmiss))
  all_goals rintro rfl; exact step_of_decode_ok hrun hfetch rfl

end Sys2Proof.Machine
end

section
/-! PROOFS. LDI (41_system_data.md rule R91): its fatal error, and the rule as a whole. -/

namespace Sys2Proof.Machine

/-- LDI under an index that names no register faults and writes nothing (R91, R162). -/
theorem exec_ldi_error {a : Byte} (b : Byte) (s : State) (h : 7 < a.toNat) :
    exec (.ldi a b) s = .next { s with run := .faulted (.outOfBoundsRegister a) } := by
  simp only [exec, execLdi, regOperand_error h, bind_error, commit_error]

/-- Settles O11: the opcode decodes by computation; the register index splits into one that names a register, where LDI
ends in a register write and an advance by 3, and one that names none, where it raises. -/
theorem ldiLoadsTheImmediate : Obligations.LdiLoadsTheImmediate := by
  intro a b s
  refine ⟨?decodes, fun hreg => ?loads, fun hbad => ?faults⟩
  case decodes => rfl
  case loads => exact exec_ldi_ok b s (regOperand_ok hreg)
  case faults => exact exec_ldi_error b s hbad

end Sys2Proof.Machine
end

section
/-! PROOFS. The encoding (30_encoding.md rules R36, R53, R58 to R61): what the decoder makes of any three bytes, and that
decoding and encoding agree. -/

namespace Sys2Proof

open Sys2Proof.Machine

/-! ### From the bytes of an instruction to the instruction -/

/-- The 13 opcodes (R58). -/
def opcodes : List Byte := [0x01, 0x82, 0x47, 0x45, 0x46, 0x50, 0x11, 0x54, 0x55, 0x56, 0xA0, 0xA2, 0xA7]

/-- Three bytes that begin with the bytes of an instruction decode to it: the opcode selects the handler and the operand
bytes of its format are taken over (R57, R73, R74). -/
theorem decode_of_encode_prefix {i : Instr} {ir a b : Byte} (h : encode i <+: [ir, a, b]) : decode ir a b = .ok i := by
  cases i <;>
    simp only [encode, Instr.opcode, Instr.operandBytes, List.cons_prefix_cons, List.nil_prefix, and_true] at h
  case hlt | ret => subst h; rfl
  case prn | push | pop | call | jmp | jeq | jne => obtain ⟨rfl, rfl⟩ := h; rfl
  case ldi | add | mul | cmp => obtain ⟨rfl, rfl, rfl⟩ := h; rfl

/-- Every opcode begins the encoding of an instruction with any operand bytes. -/
theorem exists_encode_prefix_of_opcode {ir : Byte} (a b : Byte) (h : ir ∈ opcodes) : ∃ i, encode i <+: [ir, a, b] := by
  simp only [opcodes, List.mem_cons, List.not_mem_nil, or_false] at h
  obtain rfl | rfl | rfl | rfl | rfl | rfl | rfl | rfl | rfl | rfl | rfl | rfl | rfl := h
  exacts [⟨.hlt, [a, b], rfl⟩, ⟨.ldi a b, [], rfl⟩, ⟨.prn a, [b], rfl⟩, ⟨.push a, [b], rfl⟩, ⟨.pop a, [b], rfl⟩,
    ⟨.call a, [b], rfl⟩, ⟨.ret, [a, b], rfl⟩, ⟨.jmp a, [b], rfl⟩, ⟨.jeq a, [b], rfl⟩, ⟨.jne a, [b], rfl⟩,
    ⟨.add a b, [], rfl⟩, ⟨.mul a b, [], rfl⟩, ⟨.cmp a b, [], rfl⟩]

/-! ### The three classes of opcode bytes (R59 to R61) -/

theorem decode_unsupported {ir : Byte} (a b : Byte) (hbit : ir.getLsbD 5 = true) (h : ir ∉ opcodes) :
    decode ir a b = .error (.unsupportedOperation ir) := by
  rw [decode_of_bit5_set a b hbit, decodeAlu_miss a b]
  exact fun hmem => h (by revert hmem; simp only [opcodes, List.mem_cons]; tauto)

theorem decode_unknown {ir : Byte} (a b : Byte) (hbit : ir.getLsbD 5 = false) (h : ir ∉ opcodes) :
    decode ir a b = .error (.unknownOpcode ir) := by
  rw [decode_of_bit5_clear a b hbit, decodeTable_miss a b]
  exact fun hmem => h (by revert hmem; simp only [opcodes, List.mem_cons]; tauto)

/-- What the decoder answers for any three bytes. -/
theorem decode_cases (ir a b : Byte) :
    (ir ∈ opcodes ∧ ∃ i, encode i <+: [ir, a, b] ∧ decode ir a b = .ok i) ∨
      (ir ∉ opcodes ∧ ir.getLsbD 5 = true ∧ decode ir a b = .error (.unsupportedOperation ir)) ∨
      (ir ∉ opcodes ∧ ir.getLsbD 5 = false ∧ decode ir a b = .error (.unknownOpcode ir)) := by
  by_cases hmem : ir ∈ opcodes
  · obtain ⟨i, hi⟩ := exists_encode_prefix_of_opcode a b hmem
    exact .inl ⟨hmem, i, hi, decode_of_encode_prefix hi⟩
  · cases hbit : ir.getLsbD 5 with
    | true => exact .inr (.inl ⟨hmem, rfl, decode_unsupported a b hbit hmem⟩)
    | false => exact .inr (.inr ⟨hmem, rfl, decode_unknown a b hbit hmem⟩)

/-- Only bytes that begin with an instruction's bytes decode to it: the instruction that they do begin with is the one
decoded. -/
theorem encode_prefix_of_decode {i : Instr} {ir a b : Byte} (h : decode ir a b = .ok i) : encode i <+: [ir, a, b] := by
  rcases decode_cases ir a b with ⟨-, j, hj, hd⟩ | ⟨-, -, hd⟩ | ⟨-, -, hd⟩ <;> rw [hd] at h <;> cases h
  exact hj

/-- The first byte decoded is the opcode of the instruction. -/
theorem opcode_of_decode {i : Instr} {ir a b : Byte} (h : decode ir a b = .ok i) : ir = i.opcode :=
  (List.cons_prefix_cons.mp (encode_prefix_of_decode h)).1.symm

/-- Bytes appended to an encoding leave the encoding at the front of the first three. -/
theorem decodeBytes_encode_append (i : Instr) (x y : Byte) : decodeBytes (encode i ++ [x, y]) = .ok i := by
  apply decode_of_encode_prefix
  cases i <;> simp [encode, Instr.operandBytes]

/-! ### The obligations about the encoding -/

/-- Settles O2: an encoding at the front of three bytes decodes to its instruction, by cases on the instruction, and since
every three bytes that decode begin with some encoding, they begin with that of the instruction decoded. -/
theorem decodeAndEncodeAgree : Obligations.DecodeAndEncodeAgree :=
  fun i => ⟨decodeBytes_encode_append i, fun _ _ _ => ⟨encode_prefix_of_decode, decode_of_encode_prefix⟩⟩

/-- Settles O3: the classes are the three cases of `decode_cases`; the sizes are counted over the 256 bytes. -/
theorem opcodeSpaceIsPartitioned : Obligations.OpcodeSpaceIsPartitioned := by
  refine ⟨fun ir a b => ?classes, ?valid, ?unsupported, ?unknown⟩
  case classes =>
    change (_ ↔ ir ∈ opcodes) ∧ (_ ↔ _ ∧ ir ∉ opcodes) ∧ (_ ↔ _ ∧ ir ∉ opcodes)
    rcases decode_cases ir a b with ⟨hmem, i, -, hd⟩ | ⟨hmem, hbit, hd⟩ | ⟨hmem, hbit, hd⟩ <;>
      simp [*, -BitVec.getLsbD_eq_getElem]
  case valid | unsupported | unknown => decide +kernel

/-- Settles O1, by computation on each opcode. -/
theorem opcodeTableDecodesAndEncodes : Obligations.OpcodeTableDecodesAndEncodes := by
  intro a b
  refine ⟨?_, ?_, ?_, ?_, ?_, ?_, ?_, ?_, ?_, ?_, ?_, ?_, ?_⟩ <;> exact ⟨rfl, rfl⟩

end Sys2Proof
end

section
/-! PROOFS. What an instruction does, said once: `exec` raises `handlerError` where there is one, and otherwise ends in
`effect`. Every later proof about an instruction cites this (R75, R157, R162). -/

namespace Sys2Proof.Machine

/-! ### The register an operand byte names -/

/-- The register an operand byte names. Only an index that passes the check of R12 is ever used with it. -/
def regIndex (a : Byte) : Fin Config.nregs := Fin.ofNat Config.nregs a.toNat

theorem regIndex_eq {a : Byte} (h : a.toNat < 8) : regIndex a = ⟨a.toNat, h⟩ :=
  Fin.ext (Nat.mod_eq_of_lt h)

theorem regIndex_val {a : Byte} (h : a.toNat < 8) : (regIndex a).val = a.toNat := Nat.mod_eq_of_lt h

/-- The register an operand byte names, read through the accessor or from the vector. -/
theorem State.reg_regIndex (s : State) {a : Byte} (h : a.toNat < 8) : s.reg (regIndex a) = s.regs[a.toNat] := by
  rw [regIndex_eq h, State.reg_mk]

@[simp] theorem regIndex_seven : regIndex 7 = Config.spIndex := rfl

/-- A valid operand byte other than 7 does not name the stack pointer. -/
theorem regIndex_ne_spIndex {a : Byte} (h : a.toNat < 8) (hne : a ≠ 7) : regIndex a ≠ Config.spIndex := by
  intro he
  have hval : a.toNat = 7 := by rw [← regIndex_val h, he]; rfl
  exact hne (BitVec.eq_of_toNat_eq hval)

theorem regOperand_eq (a : Byte) :
    regOperand a = if namesRegister a then .ok (regIndex a) else .error (.outOfBoundsRegister a) := by
  rcases regOperand_cases a with ⟨h, hr⟩ | ⟨h, hr⟩
  · simp [hr, namesRegister, h, regIndex_eq h]
  · simp [hr, namesRegister, Nat.not_lt.mpr h]

/-! ### The effect of an instruction that raises no fatal error -/

/-- The state after a push that the range rule lets through; the value is read after the decrement (R100, D14). -/
def State.pushed (s : State) (value : State → Byte) : State :=
  { s.setReg Config.spIndex (s.sp - 1) with
    mem := s.mem.write (s.sp - 1).toNat (value (s.setReg Config.spIndex (s.sp - 1))) }

/-- The state after the post-increment of a pop that the range rule lets through (R101, R111). -/
def State.popped (s : State) : State := s.setReg Config.spIndex (s.sp + 1)

/-- The state with the program counter at the address a register holds (R120). -/
def State.jumped (s : State) (a : Byte) : State := s.setPc (zext9 (s.reg (regIndex a)))

/-- The state an instruction ends in when it raises no fatal error: its row of the instruction table (R90 to R133). -/
def effect : Instr → State → State
  | .hlt, s => { s.advance 1 with run := .halted }
  | .ldi a b, s => (s.setReg (regIndex a) b).advance 3
  | .prn a, s => (s.output (s.reg (regIndex a))).advance 2
  | .push a, s => (s.pushed (fun u => u.reg (regIndex a))).advance 2
  | .pop a, s => (s.setReg (regIndex a) (s.mem.read s.sp.toNat)).popped.advance 2
  | .call a, s => (s.pushed returnAddress).jumped a
  | .ret, s => s.popped.setPc (zext9 (s.mem.read s.sp.toNat))
  | .jmp a, s => s.jumped a
  | .jeq a, s => if s.flagE then s.jumped a else s.advance 2
  | .jne a, s => if s.flagE then s.advance 2 else s.jumped a
  | .add a b, s => (s.setReg (regIndex a) (s.reg (regIndex a) + s.reg (regIndex b))).advance 3
  | .mul a b, s => (s.setReg (regIndex a) (s.reg (regIndex a) * s.reg (regIndex b))).advance 3
  | .cmp a b, s => (s.setFlags (compareFlags (s.reg (regIndex a)) (s.reg (regIndex b)))).advance 3

/-! ### The shared operations as a fatal error or a state -/

/-- A push raises where the stack pointer is 0, and otherwise pushes. -/
theorem pushValue_eq (value : State → Byte) (s : State) :
    pushValue value s = if s.sp = 0 then .error (.outOfBoundsMemory (-1)) else .ok (s.pushed value) := by
  split
  case isTrue h => exact pushValue_error value (by rw [h]; rfl)
  case isFalse h =>
    have hpos : s.sp.toNat ≠ 0 := fun h0 => h (BitVec.eq_of_toNat_eq h0)
    exact pushValue_ok value (by omega)

/-- A pop raises where the stack pointer is 255, and otherwise increments it. -/
theorem incSp_eq (s : State) :
    incSp s = if s.sp = 255 then .error (.outOfBoundsMemory 256) else .ok s.popped := by
  split
  case isTrue h => exact incSp_error (by rw [h]; rfl)
  case isFalse h =>
    have hne : s.sp.toNat ≠ 255 := fun h0 => h (BitVec.eq_of_toNat_eq h0)
    exact incSp_ok (by have := s.sp.isLt; omega)

/-- The stack pointer after the load of POP: the byte popped for `POP R7`, and otherwise what it was (D14). -/
theorem State.setReg_regIndex_sp (s : State) {a : Byte} (v : Byte) (h : a.toNat < 8) :
    (s.setReg (regIndex a) v).sp = if a = 7 then v else s.sp := by
  split
  case isTrue h7 => subst h7; exact s.setReg_sp v
  case isFalse h7 => exact s.setReg_reg_ne v (regIndex_ne_spIndex h h7).symm

theorem jumpTo_eq (a : Byte) (s : State) :
    jumpTo a s = if namesRegister a then .ok (s.jumped a) else .error (.outOfBoundsRegister a) := by
  rw [jumpTo, regOperand_eq]
  split <;> rfl

theorem aluInstr_eq (op : AluOp) (a b : Byte) (s : State) :
    aluInstr op a b s =
      if namesRegister a then
        if namesRegister b then
          .ok ((aluWriteback (regIndex a) (alu op (s.reg (regIndex a)) (s.reg (regIndex b))) s).advance 3)
        else .error (.outOfBoundsRegister b)
      else .error (.outOfBoundsRegister a) := by
  rw [aluInstr, regOperand_eq, regOperand_eq]
  split <;> [split; skip] <;> rfl

/-! ### `handlerError`, by the number of registers indexed -/

theorem handlerError_nil {i : Instr} {s : State} (h : indexedOperands i s = []) : handlerError i s = stackError i s := by
  simp [handlerError, h]

theorem handlerError_one {i : Instr} {s : State} {a : Byte} (h : indexedOperands i s = [a]) :
    handlerError i s = if namesRegister a then stackError i s else some (.outOfBoundsRegister a) := by
  cases ha : namesRegister a <;> simp [handlerError, h, ha]

theorem handlerError_two {i : Instr} {s : State} {a b : Byte} (h : indexedOperands i s = [a, b]) :
    handlerError i s =
      if namesRegister a then
        if namesRegister b then stackError i s else some (.outOfBoundsRegister b)
      else some (.outOfBoundsRegister a) := by
  cases ha : namesRegister a <;> cases hb : namesRegister b <;> simp [handlerError, h, ha, hb]

/-! ### A conditional jump indexes its register only when it is taken (R121, R122, D13) -/

theorem indexedOperands_jeq_taken {s : State} (a : Byte) (h : s.flagE = true) : indexedOperands (.jeq a) s = [a] :=
  if_pos h
theorem indexedOperands_jeq_not_taken {s : State} (a : Byte) (h : s.flagE = false) :
    indexedOperands (.jeq a) s = [] := if_neg (ne_true_of_eq_false h)
theorem indexedOperands_jne_taken {s : State} (a : Byte) (h : s.flagE = false) : indexedOperands (.jne a) s = [a] :=
  if_neg (ne_true_of_eq_false h)
theorem indexedOperands_jne_not_taken {s : State} (a : Byte) (h : s.flagE = true) :
    indexedOperands (.jne a) s = [] := if_pos h

/-! ### `exec` as a whole -/

/-- The result of a handler: the first fatal error, or the effect. -/
def handlerResult (i : Instr) (s : State) : Except FatalError State :=
  (handlerError i s).elim (.ok (effect i s)) .error

/-- What an instruction does in any state: it commits its effect, or raises the first fatal error it meets. -/
theorem exec_eq (i : Instr) (s : State) : exec i s = commit s (handlerResult i s) := by
  cases i with
  | hlt => rfl
  | ldi a b =>
    rw [exec, execLdi, regOperand_eq, handlerResult, handlerError_one rfl]
    split <;> rfl
  | prn a =>
    rw [exec, execPrn, regOperand_eq, handlerResult, handlerError_one rfl]
    split <;> rfl
  | push a =>
    rw [exec, execPush, regOperand_eq, handlerResult, handlerError_one rfl, stackError]
    split
    · simp only [bind_ok, pushValue_eq]
      split <;> rfl
    · rfl
  | pop a =>
    rw [exec, execPop, regOperand_eq, handlerResult, handlerError_one rfl, stackError]
    split
    case isTrue ha =>
      simp only [bind_ok, topOfStack_eq, incSp_eq, State.setReg_regIndex_sp s _ (of_decide_eq_true ha)]
      generalize (if a = 7 then s.mem.read s.sp.toNat else s.sp) = sp
      split <;> rfl
    case isFalse => rfl
  | call a =>
    rw [exec, execCall, regOperand_eq, handlerResult, handlerError_one rfl, stackError]
    split
    · simp only [bind_ok, pushValue_eq]
      split <;> rfl
    · rfl
  | ret =>
    rw [exec, execRet, handlerResult, handlerError_nil rfl, stackError, topOfStack_eq, bind_ok, incSp_eq]
    split <;> rfl
  | jmp a =>
    rw [exec, execJmp, jumpTo_eq, handlerResult, handlerError_one rfl]
    split <;> rfl
  | jeq a =>
    cases hE : s.flagE with
    | true =>
      rw [exec, execJeq, hE, jumpIf_true, jumpTo_eq, handlerResult, handlerError_one (indexedOperands_jeq_taken a hE)]
      split <;> simp [effect, hE, stackError]
    | false => simp [exec, execJeq, hE, handlerResult, handlerError, indexedOperands, stackError, effect]
  | jne a =>
    cases hE : s.flagE with
    | true => simp [exec, execJne, hE, handlerResult, handlerError, indexedOperands, stackError, effect]
    | false =>
      rw [exec, execJne, hE, Bool.not_false, jumpIf_true, jumpTo_eq, handlerResult,
        handlerError_one (indexedOperands_jne_taken a hE)]
      split <;> simp [effect, hE, stackError]
  | add a b =>
    rw [exec, execAdd, aluInstr_eq, handlerResult, handlerError_two rfl, effect, ← wrap_add]
    split <;> [split; skip] <;> rfl
  | mul a b =>
    rw [exec, execMul, aluInstr_eq, handlerResult, handlerError_two rfl, effect, ← wrap_mul]
    split <;> [split; skip] <;> rfl
  | cmp a b =>
    rw [exec, execCmp, aluInstr_eq, handlerResult, handlerError_two rfl]
    split <;> [split; skip] <;> rfl

/-- Without a fatal error an instruction ends in its effect. -/
theorem exec_of_no_error {i : Instr} {s : State} (h : handlerError i s = none) : exec i s = .next (effect i s) := by
  rw [exec_eq, handlerResult, h, Option.elim_none, commit_ok]

/-- With one it changes the run state and nothing else (R161, R162). -/
theorem exec_of_error {i : Instr} {s : State} {e : FatalError} (h : handlerError i s = some e) :
    exec i s = .next { s with run := .faulted e } := by
  rw [exec_eq, handlerResult, h, Option.elim_some, commit_error]

/-- All that an instruction can answer. -/
theorem exec_next {i : Instr} {s t : State} (h : exec i s = .next t) :
    (handlerError i s = none ∧ t = effect i s) ∨
      ∃ e, handlerError i s = some e ∧ t = { s with run := .faulted e } := by
  cases he : handlerError i s with
  | none => rw [exec_of_no_error he] at h; cases h; exact .inl ⟨rfl, rfl⟩
  | some e => rw [exec_of_error he] at h; cases h; exact .inr ⟨e, rfl, rfl⟩

/-! ### When an instruction completes, and which register index it reports -/

theorem namesRegister_of_lt {a : Byte} (h : a.toNat < 8) : namesRegister a = true := decide_eq_true h
theorem namesRegister_of_gt {a : Byte} (h : 7 < a.toNat) : namesRegister a = false :=
  decide_eq_false (Nat.not_lt.mpr h)

theorem handlerError_of_lt {i : Instr} {s : State} (h : ∀ a ∈ indexedOperands i s, a.toNat < 8) :
    handlerError i s = stackError i s := by
  have hnone : (indexedOperands i s).find? (fun a => !namesRegister a) = none :=
    List.find?_eq_none.mpr fun a ha => by simp [namesRegister_of_lt (h a ha)]
  simp [handlerError, hnone]

/-- An instruction that raises no fatal error indexes only registers that exist. -/
theorem lt_of_handlerError_none {i : Instr} {s : State} (h : handlerError i s = none) {a : Byte}
    (ha : a ∈ indexedOperands i s) : a.toNat < 8 := by
  unfold handlerError at h
  split at h
  case h_1 => cases h
  case h_2 hnone => simpa [namesRegister] using List.find?_eq_none.mp hnone a ha

/-- An instruction completes when its register indices and the stack pointer are in range. -/
theorem exec_completes {i : Instr} {s : State} (h : ∀ a ∈ indexedOperands i s, a.toNat < 8)
    (hstack : stackError i s = none) : exec i s = .next (effect i s) :=
  exec_of_no_error ((handlerError_of_lt h).trans hstack)

theorem exec_completes_nil {i : Instr} {s : State} (hi : indexedOperands i s = []) (hstack : stackError i s = none) :
    exec i s = .next (effect i s) :=
  exec_completes (by rw [hi]; exact List.forall_mem_nil _) hstack

theorem exec_completes_one {i : Instr} {s : State} {a : Byte} (hi : indexedOperands i s = [a])
    (hstack : stackError i s = none) (ha : a.toNat < 8) : exec i s = .next (effect i s) :=
  exec_completes (by rw [hi]; exact List.forall_mem_singleton.mpr ha) hstack

theorem exec_completes_two {i : Instr} {s : State} {a b : Byte} (hi : indexedOperands i s = [a, b])
    (hstack : stackError i s = none) (ha : a.toNat < 8) (hb : b.toNat < 8) : exec i s = .next (effect i s) :=
  exec_completes (by rw [hi]; exact List.forall_mem_cons.mpr ⟨ha, List.forall_mem_singleton.mpr hb⟩) hstack

/-- A first index out of range is reported (R158). -/
theorem exec_first_index_error {i : Instr} {s : State} {a : Byte} {l : List Byte} (h : indexedOperands i s = a :: l)
    (ha : 7 < a.toNat) : exec i s = .next { s with run := .faulted (.outOfBoundsRegister a) } :=
  exec_of_error (by simp [handlerError, h, namesRegister_of_gt ha])

/-- A second one is reported only after a first in range (R158). -/
theorem exec_second_index_error {i : Instr} {s : State} {a b : Byte} (h : indexedOperands i s = [a, b])
    (ha : a.toNat < 8) (hb : 7 < b.toNat) : exec i s = .next { s with run := .faulted (.outOfBoundsRegister b) } :=
  exec_of_error (by rw [handlerError_two h, namesRegister_of_lt ha, namesRegister_of_gt hb]; rfl)

/-- With the indices in range the stack pointer range rule is next (R102). -/
theorem exec_stack_error {i : Instr} {s : State} {e : FatalError} (h : ∀ a ∈ indexedOperands i s, a.toNat < 8)
    (hstack : stackError i s = some e) : exec i s = .next { s with run := .faulted e } :=
  exec_of_error ((handlerError_of_lt h).trans hstack)

end Sys2Proof.Machine
end

section
/-! PROOFS. The effect of an instruction on each part of the state, and the step as a whole (R77). -/

namespace Sys2Proof.Machine

/-! ### Pushing, popping and jumping, field by field -/

@[simp] theorem State.pushed_regs (s : State) (value : State → Byte) : (s.pushed value).regs = s.regs.set 7 (s.sp - 1) := rfl
@[simp] theorem State.pushed_pc (s : State) (value : State → Byte) : (s.pushed value).pc = s.pc := rfl
@[simp] theorem State.pushed_fl (s : State) (value : State → Byte) : (s.pushed value).fl = s.fl := rfl
@[simp] theorem State.pushed_run (s : State) (value : State → Byte) : (s.pushed value).run = s.run := rfl
@[simp] theorem State.pushed_out (s : State) (value : State → Byte) : (s.pushed value).out = s.out := rfl
@[simp] theorem State.pushed_mem (s : State) (value : State → Byte) :
    (s.pushed value).mem = s.mem.write (s.sp - 1).toNat (value (s.setReg Config.spIndex (s.sp - 1))) := rfl
@[simp] theorem State.pushed_reg (s : State) (value : State → Byte) (r : Fin Config.nregs) :
    (s.pushed value).reg r = (s.setReg Config.spIndex (s.sp - 1)).reg r := rfl
@[simp] theorem State.pushed_sp (s : State) (value : State → Byte) : (s.pushed value).sp = s.sp - 1 := s.setReg_sp _

@[simp] theorem State.popped_regs (s : State) : s.popped.regs = s.regs.set 7 (s.sp + 1) := rfl
@[simp] theorem State.popped_pc (s : State) : s.popped.pc = s.pc := rfl
@[simp] theorem State.popped_fl (s : State) : s.popped.fl = s.fl := rfl
@[simp] theorem State.popped_run (s : State) : s.popped.run = s.run := rfl
@[simp] theorem State.popped_out (s : State) : s.popped.out = s.out := rfl
@[simp] theorem State.popped_mem (s : State) : s.popped.mem = s.mem := rfl

@[simp] theorem State.jumped_regs (s : State) (a : Byte) : (s.jumped a).regs = s.regs := rfl
@[simp] theorem State.jumped_pc (s : State) (a : Byte) : (s.jumped a).pc = zext9 (s.reg (regIndex a)) := rfl
@[simp] theorem State.jumped_fl (s : State) (a : Byte) : (s.jumped a).fl = s.fl := rfl
@[simp] theorem State.jumped_run (s : State) (a : Byte) : (s.jumped a).run = s.run := rfl
@[simp] theorem State.jumped_out (s : State) (a : Byte) : (s.jumped a).out = s.out := rfl
@[simp] theorem State.jumped_mem (s : State) (a : Byte) : (s.jumped a).mem = s.mem := rfl

/-- The register an instruction reads after a push: the decremented stack pointer for R7 (D14). -/
theorem State.reg_after_decrement (s : State) {a : Byte} (h : a.toNat < 8) :
    (s.setReg Config.spIndex (s.sp - 1)).reg (regIndex a) = if a = 7 then s.sp - 1 else s.regs[a.toNat] := by
  split
  case isTrue h7 => subst h7; exact s.setReg_sp _
  case isFalse h7 => rw [s.setReg_reg_ne _ (regIndex_ne_spIndex h h7), s.reg_regIndex h]

/-! ### A conditional jump, taken and not taken (R121, R122) -/

theorem effect_jeq_taken {s : State} (a : Byte) (h : s.flagE = true) : effect (.jeq a) s = s.jumped a := if_pos h
theorem effect_jeq_not_taken {s : State} (a : Byte) (h : s.flagE = false) : effect (.jeq a) s = s.advance 2 :=
  if_neg (ne_true_of_eq_false h)
theorem effect_jne_taken {s : State} (a : Byte) (h : s.flagE = false) : effect (.jne a) s = s.jumped a :=
  if_neg (ne_true_of_eq_false h)
theorem effect_jne_not_taken {s : State} (a : Byte) (h : s.flagE = true) : effect (.jne a) s = s.advance 2 := if_pos h

/-! ### What the effects leave alone -/

/-- Only HLT changes the run state without a fatal error (R90). -/
theorem effect_run (i : Instr) (s : State) : (effect i s).run = if i = .hlt then .halted else s.run := by
  cases i <;> simp [effect, apply_ite State.run]

/-- Only CMP writes FL (R17). -/
theorem effect_fl {i : Instr} (s : State) (h : ∀ a b, i ≠ .cmp a b) : (effect i s).fl = s.fl := by
  cases i <;> simp [effect, apply_ite State.fl]
  case cmp a b => exact absurd rfl (h a b)

/-- CMP writes one of three values (R17, R133). -/
theorem effect_cmp_fl (a b : Byte) (s : State) :
    (effect (.cmp a b) s).fl = 0x01 ∨ (effect (.cmp a b) s).fl = 0x02 ∨ (effect (.cmp a b) s).fl = 0x04 := by
  simp only [effect, State.advance_fl, State.setFlags_fl]
  rcases compareFlags_cases (s.reg (regIndex a)) (s.reg (regIndex b)) with h | h | h <;> simp [h]

/-- Only PRN puts out a byte (R21, R92). -/
theorem effect_out {i : Instr} (s : State) (h : ∀ a, i ≠ .prn a) : (effect i s).out = s.out := by
  cases i <;> simp [effect, apply_ite State.out]
  case prn a => exact absurd rfl (h a)

/-- Only PUSH and CALL write memory (R39). -/
theorem effect_mem {i : Instr} (s : State) (hpush : ∀ a, i ≠ .push a) (hcall : ∀ a, i ≠ .call a) :
    (effect i s).mem = s.mem := by
  cases i <;> simp [effect, apply_ite State.mem]
  case push a => exact absurd rfl (hpush a)
  case call a => exact absurd rfl (hcall a)

/-! ### The step (R70 to R77) -/

/-- What the decoder makes of the three bytes at the program counter. -/
def State.decoded (s : State) : Except Reject Instr :=
  decode (s.mem.read s.pc.toNat) (s.mem.read (s.pc.toNat + 1)) (s.mem.read (s.pc.toNat + 2))

theorem step_of_decoded {s : State} {i : Instr} (hrun : s.run = .running) (hpc : s.pc.toNat ≤ 253)
    (h : s.decoded = .ok i) : step s = exec i s := step_of_decode_ok hrun (fetch_ok hpc) h

theorem step_of_rejected {s : State} {r : Reject} (hrun : s.run = .running) (hpc : s.pc.toNat ≤ 253)
    (h : s.decoded = .error r) : step s = .next { s with run := .faulted (rejectError r) } :=
  step_of_decode_error hrun (fetch_ok hpc) h

theorem step_of_fetch_fault {s : State} (hrun : s.run = .running) (hpc : 254 ≤ s.pc.toNat) :
    step s = .next { s with run := .faulted (.outOfBoundsMemory (max 256 s.pc.toNat)) } := by
  simp only [step, hrun, fetch_error hpc, raise]

theorem step_ne_next {s : State} (hrun : s.run ≠ .running) (t : State) : step s ≠ .next t := by
  cases h : s.run <;> simp_all [step]

/-- Why a running machine raises a fatal error in a step, in the order the checks are made (R157). -/
inductive StepRaises (s : State) : FatalError → Prop
  | fetch (hpc : 254 ≤ s.pc.toNat) : StepRaises s (.outOfBoundsMemory (max 256 s.pc.toNat))
  | dispatch {r : Reject} (hpc : s.pc.toNat ≤ 253) (hd : s.decoded = .error r) : StepRaises s (rejectError r)
  | handler {i : Instr} {e : FatalError} (hpc : s.pc.toNat ≤ 253) (hd : s.decoded = .ok i)
      (he : handlerError i s = some e) : StepRaises s e

/-- All that a step can do: from a running state it raises a fatal error and changes the run state alone, or it ends in
the effect of the instruction at the program counter. -/
theorem step_next {s t : State} (h : step s = .next t) :
    s.run = .running ∧
      ((∃ e, StepRaises s e ∧ t = { s with run := .faulted e }) ∨
        ∃ i, s.pc.toNat ≤ 253 ∧ s.decoded = .ok i ∧ handlerError i s = none ∧ t = effect i s) := by
  have hrun : s.run = .running := by
    by_contra hne
    exact step_ne_next hne t h
  refine ⟨hrun, ?_⟩
  rcases Nat.lt_or_ge s.pc.toNat 254 with hpc | hpc
  · have hpc : s.pc.toNat ≤ 253 := by omega
    cases hd : s.decoded with
    | error r =>
      rw [step_of_rejected hrun hpc hd] at h
      cases h
      exact .inl ⟨_, .dispatch hpc hd, rfl⟩
    | ok i =>
      rw [step_of_decoded hrun hpc hd] at h
      rcases exec_next h with ⟨hnone, ht⟩ | ⟨e, he, ht⟩
      · exact .inr ⟨i, hpc, rfl, hnone, ht⟩
      · exact .inl ⟨e, .handler hpc hd he, ht⟩
  · rw [step_of_fetch_fault hrun hpc] at h
    cases h
    exact .inl ⟨_, .fetch hpc, rfl⟩

/-- A step after which a part of the state other than the run state has changed ran an instruction to its end. -/
theorem step_changes {α : Type} {s t : State} (part : State → α) (hpart : ∀ e, part { s with run := .faulted e } = part s)
    (h : step s = .next t) (hne : part t ≠ part s) :
    ∃ i, s.decoded = .ok i ∧ handlerError i s = none ∧ t = effect i s := by
  obtain ⟨-, ⟨e, -, rfl⟩ | ⟨i, -, hd, hnone, ht⟩⟩ := step_next h
  · exact absurd (hpart e) hne
  · exact ⟨i, hd, hnone, ht⟩

/-- The opcode of the instruction decoded stands at the program counter. -/
theorem opcode_of_decoded {s : State} {i : Instr} (h : s.decoded = .ok i) : s.mem.read s.pc.toNat = i.opcode :=
  opcode_of_decode h

/-! ### The obligations about the step -/

/-- Settles O4. -/
theorem stepRunsTheDecodedInstruction : Obligations.StepRunsTheDecodedInstruction :=
  fun _ _ hrun hpc hd => step_of_decoded hrun hpc hd

/-- Settles O7. -/
theorem fetchFaultsAtTheTopOfMemory : Obligations.FetchFaultsAtTheTopOfMemory :=
  fun _ hrun hpc => step_of_fetch_fault hrun hpc

theorem encode_length_le (i : Instr) : (encode i).length ≤ 3 := by
  cases i <;> simp [encode, Instr.operandBytes]

/-- Bytes of an encoding in memory from the program counter upward stand at the front of the three bytes fetched. -/
theorem encode_prefix_of_stored {s : State} {i : Instr}
    (h : ∀ k (hk : k < (encode i).length), s.mem.read (s.pc.toNat + k) = (encode i)[k]) :
    encode i <+: [s.mem.read s.pc.toNat, s.mem.read (s.pc.toNat + 1), s.mem.read (s.pc.toNat + 2)] := by
  refine List.prefix_iff_getElem.mpr ⟨encode_length_le i, fun k hk => ?_⟩
  have hk3 : k < 3 := hk.trans_le (encode_length_le i)
  rw [← h k hk]
  interval_cases k <;> rfl

/-- Settles O5: the bytes stored stand at the front of those fetched, so they decode to the instruction. -/
theorem stepRunsTheInstructionStoredAtPc : Obligations.StepRunsTheInstructionStoredAtPc :=
  fun _ _ hrun hpc hstored => step_of_decoded hrun hpc (decode_of_encode_prefix (encode_prefix_of_stored hstored))

/-- A machine that is not running stays as it is (R70). -/
theorem runMachine_of_not_running {s : State} (h : s.run ≠ .running) (n : Nat) : runMachine n s = s := by
  cases n with
  | zero => rfl
  | succ n =>
    cases hrun : s.run with
    | running => exact absurd hrun h
    | halted => simp [runMachine, step, hrun]
    | faulted e => simp [runMachine, step, hrun]

/-- A running machine takes a step. -/
theorem exists_step {s : State} (hrun : s.run = .running) : ∃ t, step s = .next t := by
  rcases Nat.lt_or_ge s.pc.toNat 254 with hpc | hpc
  · have hpc : s.pc.toNat ≤ 253 := by omega
    cases hd : s.decoded with
    | error r => exact ⟨_, step_of_rejected hrun hpc hd⟩
    | ok i =>
      rw [step_of_decoded hrun hpc hd]
      cases he : handlerError i s with
      | none => exact ⟨_, exec_of_no_error he⟩
      | some e => exact ⟨_, exec_of_error he⟩
  · exact ⟨_, step_of_fetch_fault hrun hpc⟩

/-- Settles O6: a running state has a step, which raises or runs the instruction decoded; another state has none. -/
theorem stepTakenIffRunning : Obligations.StepTakenIffRunning := by
  refine fun s => ⟨⟨fun ⟨t, h⟩ => (step_next h).1, exists_step⟩, fun hrun => ?_, runMachine_of_not_running⟩
  obtain ⟨t, h⟩ := exists_step hrun
  obtain ⟨-, ⟨e, -, rfl⟩ | ⟨i, hpc, hd, -, -⟩⟩ := step_next h
  · exact .inr ⟨e, h⟩
  · exact .inl ⟨i, hd, step_of_decoded hrun hpc hd⟩

end Sys2Proof.Machine
end

section
/-! PROOFS. The instructions one by one (41_system_data.md to 45_alu.md): result, completion, frame and fatal errors. Each
clause is a case of `exec_completes`, `exec_first_index_error`, `exec_second_index_error` or `exec_stack_error`. -/

namespace Sys2Proof.Machine

/-! ### The stack pointer range rule where it does not fault -/

theorem stackError_push_of_pos {s : State} (a : Byte) (h : 1 ≤ s.sp.toNat) : stackError (.push a) s = none :=
  if_neg fun h0 => by rw [h0] at h; exact absurd h (by decide)

theorem stackError_call_of_pos {s : State} (a : Byte) (h : 1 ≤ s.sp.toNat) : stackError (.call a) s = none :=
  if_neg fun h0 => by rw [h0] at h; exact absurd h (by decide)

theorem byte_ne_255 {v : Byte} (h : v.toNat ≤ 254) : v ≠ 255 := by
  rintro rfl
  exact absurd h (by decide)

theorem stackError_ret_of_le {s : State} (h : s.sp.toNat ≤ 254) : stackError .ret s = none :=
  if_neg (byte_ne_255 h)

theorem stackError_pop_of_le {s : State} {a : Byte} (h7 : a ≠ 7) (h : s.sp.toNat ≤ 254) :
    stackError (.pop a) s = none := by
  rw [stackError, if_neg h7, if_neg (byte_ne_255 h)]

theorem stackError_pop_seven_of_le {s : State} (h : (s.mem.read s.sp.toNat).toNat ≤ 254) :
    stackError (.pop 7) s = none := by
  rw [stackError, if_pos rfl, if_neg (byte_ne_255 h)]

/-! ### What the instructions with a stack access end in -/

theorem exec_push_ok {a : Byte} {s : State} (ha : a.toNat < 8) (hsp : 1 ≤ s.sp.toNat) :
    exec (.push a) s = .next (effect (.push a) s) :=
  exec_completes_one rfl (stackError_push_of_pos a hsp) ha

theorem exec_call_ok {a : Byte} {s : State} (ha : a.toNat < 8) (hsp : 1 ≤ s.sp.toNat) :
    exec (.call a) s = .next (effect (.call a) s) :=
  exec_completes_one rfl (stackError_call_of_pos a hsp) ha

theorem exec_ret_ok {s : State} (hsp : s.sp.toNat ≤ 254) : exec .ret s = .next (effect .ret s) :=
  exec_completes_nil rfl (stackError_ret_of_le hsp)

theorem exec_pop_ok {a : Byte} {s : State} (ha : a.toNat < 8) (h7 : a ≠ 7) (hsp : s.sp.toNat ≤ 254) :
    exec (.pop a) s = .next (effect (.pop a) s) :=
  exec_completes_one rfl (stackError_pop_of_le h7 hsp) ha

theorem exec_pop_seven_ok {s : State} (h : (s.mem.read s.sp.toNat).toNat ≤ 254) :
    exec (.pop 7) s = .next (effect (.pop 7) s) :=
  exec_completes_one rfl (stackError_pop_seven_of_le h) (by decide)

/-- POP of a register other than the stack pointer: the load, and then the increment of the old stack pointer. -/
theorem effect_pop {a : Byte} {s : State} (ha : a.toNat < 8) (h7 : a ≠ 7) :
    effect (.pop a) s =
      { s with regs := (s.regs.set a.toNat (s.mem.read s.sp.toNat)).set 7 (s.sp + 1), pc := s.pc + 2 } := by
  rw [effect, State.popped, State.setReg_regIndex_sp s _ ha, if_neg h7, regIndex_eq ha]
  rfl

/-- POP of the stack pointer: the popped byte is incremented (D14). -/
theorem effect_pop_seven (s : State) :
    effect (.pop 7) s = { s with regs := s.regs.set 7 (s.mem.read s.sp.toNat + 1), pc := s.pc + 2 } := by
  rw [effect, State.popped, regIndex_seven, State.setReg_sp, State.setReg_setReg]
  rfl

/-- The program counter an instruction leaves behind when it jumps to a register. -/
theorem State.jumped_eq (s : State) {a : Byte} (h : a.toNat < 8) :
    s.jumped a = { s with pc := (s.regs[a.toNat]).setWidth 9 } := by
  rw [State.jumped, s.reg_regIndex h]
  rfl

/-! ### The obligations about single instructions -/

/-- Settles O10: HLT ends in its effect, a machine that is not running takes no further step, and no other effect and no
fatal error leaves the run state HALTED. -/
theorem hltHaltsTheMachine : Obligations.HltHaltsTheMachine := by
  refine fun s => ⟨exec_completes_nil rfl rfl, runMachine_of_not_running nofun, ?_⟩
  intro i t hrun h ht
  rcases exec_next h with ⟨-, rfl⟩ | ⟨e, -, rfl⟩
  · by_contra hne
    rw [effect_run, if_neg hne, hrun] at ht
    cases ht
  · cases ht

/-- Settles O12. -/
theorem prnAppendsTheRegister : Obligations.PrnAppendsTheRegister := by
  intro a s
  refine ⟨fun ha => ?_, exec_first_index_error rfl⟩
  rw [exec_completes_one rfl rfl ha, effect, s.reg_regIndex ha]
  rfl

/-- Settles O13: the effect of PUSH field by field; the cell written is the one below the old stack pointer. -/
theorem pushStoresBelowTheStackPointer : Obligations.PushStoresBelowTheStackPointer := by
  intro a s
  refine ⟨fun ha hsp => ⟨_, exec_push_ok ha hsp, rfl, ?_, fun addr hne => ?_, rfl, rfl, rfl, rfl⟩, fun ha hsp => ?_,
    exec_first_index_error rfl⟩
  · simp only [effect, State.advance_mem, State.pushed_mem, sp_sub_one_toNat hsp, Memory.read_write_self,
      s.reg_after_decrement ha]
  · simp only [effect, State.advance_mem, State.pushed_mem, sp_sub_one_toNat hsp, Memory.read_write_ne _ _ hne]
  · exact exec_stack_error (List.forall_mem_singleton.mpr ha) (if_pos hsp)

/-- Settles O14. -/
theorem popLoadsFromTheStackPointer : Obligations.PopLoadsFromTheStackPointer := by
  intro a s
  refine ⟨fun ha h7 hsp => ?_, fun hv => ?_, fun ha h7 hsp => ?_, fun hv => ?_, exec_first_index_error rfl⟩
  · rw [exec_pop_ok ha h7 hsp, effect_pop ha h7]
  · rw [exec_pop_seven_ok hv, effect_pop_seven]
  · exact exec_stack_error (List.forall_mem_singleton.mpr ha) (by rw [stackError, if_neg h7, if_pos hsp])
  · exact exec_stack_error (List.forall_mem_singleton.mpr (by decide)) (by rw [stackError, if_pos rfl, if_pos hv])

/-- Settles O15: the effect of CALL field by field, with the register read after the push. -/
theorem callPushesTheReturnAddress : Obligations.CallPushesTheReturnAddress := by
  intro a s hpc
  refine ⟨fun ha hsp => ⟨_, exec_call_ok ha hsp, rfl, ?_, fun addr hne => ?_, ?_, rfl, rfl, rfl⟩, fun ha hsp => ?_,
    exec_first_index_error rfl⟩
  · simp only [effect, State.jumped_mem, State.pushed_mem, sp_sub_one_toNat hsp, Memory.read_write_self]
    exact returnAddress_toNat hpc
  · simp only [effect, State.jumped_mem, State.pushed_mem, sp_sub_one_toNat hsp, Memory.read_write_ne _ _ hne]
  · rw [effect, State.jumped_pc, zext9_toNat, State.pushed_reg, s.reg_after_decrement ha]
    split
    · exact sp_sub_one_toNat hsp
    · rfl
  · exact exec_stack_error (List.forall_mem_singleton.mpr ha) (if_pos hsp)

/-- Settles O16. -/
theorem retPopsTheProgramCounter : Obligations.RetPopsTheProgramCounter :=
  fun _ => ⟨exec_ret_ok, fun hsp => exec_stack_error (List.forall_mem_nil _) (if_pos hsp)⟩

/-- Settles O17. -/
theorem jmpJumpsToTheRegister : Obligations.JmpJumpsToTheRegister := by
  intro a b s
  refine ⟨rfl, fun ha => ?_, exec_first_index_error rfl⟩
  rw [exec_completes_one rfl rfl ha, effect, s.jumped_eq ha]

theorem exec_jeq_taken {s : State} {a : Byte} (hE : s.flagE = true) (ha : a.toNat < 8) :
    exec (.jeq a) s = .next (s.jumped a) := by
  rw [exec_completes_one (indexedOperands_jeq_taken a hE) rfl ha, effect_jeq_taken a hE]

theorem exec_jeq_not_taken {s : State} (a : Byte) (hE : s.flagE = false) : exec (.jeq a) s = .next (s.advance 2) := by
  rw [exec_completes_nil (indexedOperands_jeq_not_taken a hE) rfl, effect_jeq_not_taken a hE]

theorem exec_jne_taken {s : State} {a : Byte} (hE : s.flagE = false) (ha : a.toNat < 8) :
    exec (.jne a) s = .next (s.jumped a) := by
  rw [exec_completes_one (indexedOperands_jne_taken a hE) rfl ha, effect_jne_taken a hE]

theorem exec_jne_not_taken {s : State} (a : Byte) (hE : s.flagE = true) : exec (.jne a) s = .next (s.advance 2) := by
  rw [exec_completes_nil (indexedOperands_jne_not_taken a hE) rfl, effect_jne_not_taken a hE]

/-- Settles O18: bit E decides whether a register is indexed at all. -/
theorem jeqBranchesOnEqualSet : Obligations.JeqBranchesOnEqualSet := by
  intro a s
  refine ⟨fun hE ha => ?_, fun hE => exec_first_index_error (indexedOperands_jeq_taken a hE), exec_jeq_not_taken a⟩
  rw [exec_jeq_taken hE ha, s.jumped_eq ha]

/-- Settles O19: bit E decides whether a register is indexed at all. -/
theorem jneBranchesOnEqualClear : Obligations.JneBranchesOnEqualClear := by
  intro a s
  refine ⟨fun hE ha => ?_, fun hE => exec_first_index_error (indexedOperands_jne_taken a hE), exec_jne_not_taken a⟩
  rw [exec_jne_taken hE ha, s.jumped_eq ha]

/-- Settles O20. -/
theorem addWritesTheSumModulo256 : Obligations.AddWritesTheSumModulo256 := by
  intro a b s
  refine ⟨fun ha hb => ?_, exec_first_index_error rfl, exec_second_index_error rfl⟩
  rw [exec_completes_two rfl rfl ha hb, effect, ← wrap_add, regIndex_eq ha, regIndex_eq hb]
  rfl

/-- Settles O21. -/
theorem mulWritesTheProductModulo256 : Obligations.MulWritesTheProductModulo256 := by
  intro a b s
  refine ⟨fun ha hb => ?_, exec_first_index_error rfl, exec_second_index_error rfl⟩
  rw [exec_completes_two rfl rfl ha hb, effect, ← wrap_mul, regIndex_eq ha, regIndex_eq hb]
  rfl

/-- Settles O22: the three comparisons are the three outcomes of `compareFlags`. -/
theorem cmpSetsExactlyOneFlag : Obligations.CmpSetsExactlyOneFlag := by
  intro a b s
  refine ⟨fun ha hb => ?_, exec_first_index_error rfl, exec_second_index_error rfl⟩
  rw [exec_completes_two rfl rfl ha hb, effect, s.reg_regIndex ha, s.reg_regIndex hb]
  refine ⟨fun h => ?_, fun h => ?_, fun h => ?_⟩
  · rw [compareFlags_eq h]; rfl
  · rw [compareFlags_gt h]; rfl
  · rw [compareFlags_lt h]; rfl

theorem alu_add (x y : Byte) : alu .add x y = .result (x + y) := by rw [alu, wrap_add]
theorem alu_mul (x y : Byte) : alu .mul x y = .result (x * y) := by rw [alu, wrap_mul]

/-- Settles O23: the ALU's sum and product are those of words, where 255 is -1. -/
theorem arithmeticCorners : Obligations.ArithmeticCorners := by
  refine ⟨fun v => ⟨?_, ?_, ?_, ?_⟩, rfl, rfl, rfl, rfl, rfl, rfl⟩
  · rw [alu_add, BitVec.sub_eq_add_neg]
    rfl
  all_goals simp [alu_add, alu_mul]

end Sys2Proof.Machine
end

section
/-! PROOFS. Sequences of two instructions (95_test_vectors.md S2, 20_memory.md section 5): the effect of the second in
the state the first ends in. -/

namespace Sys2Proof.Machine

/-! ### The stack pointer down and up again -/

/-- A byte above 0 decremented is at most 254, so that it can be incremented again. -/
theorem sp_sub_one_le {s : State} (h : 1 ≤ s.sp.toNat) : (s.sp - 1).toNat ≤ 254 := by
  have := s.sp.isLt
  rw [sp_sub_one_toNat h]
  omega

/-- A write of another register between a decrement and an increment of R7 is all that remains of the three. -/
theorem set_between_sp_writes (s : State) {k : Nat} (hk : k < 8) (hne : k ≠ 7) (v : Byte) :
    ((s.regs.set 7 (s.sp - 1)).set k v).set 7 (s.sp - 1 + 1) = s.regs.set k v := by
  have hsp : (s.regs.set k v)[7] = s.sp - 1 + 1 := by
    rw [Vector.getElem_set_ne _ _ hne, BitVec.sub_add_cancel]
    rfl
  rw [Vector.set_comm _ _ hne.symm, Vector.set_set, ← hsp, Vector.set_getElem_self]

/-- The byte on top of the stack after a push is the one pushed. -/
theorem State.read_pushed (s : State) (value : State → Byte) :
    (s.pushed value).mem.read (s.pushed value).sp.toNat = value (s.setReg Config.spIndex (s.sp - 1)) := by
  rw [State.pushed_sp, State.pushed_mem, Memory.read_write_self]

theorem effect_push_sp (a : Byte) (s : State) : (effect (.push a) s).sp = s.sp - 1 :=
  s.pushed_sp fun u => u.reg (regIndex a)
theorem effect_call_sp (a : Byte) (s : State) : (effect (.call a) s).sp = s.sp - 1 := s.pushed_sp returnAddress

/-- The top of the stack after PUSH: the register, or the decremented stack pointer for `PUSH R7` (D14). -/
theorem effect_push_top {a : Byte} (s : State) (ha : a.toNat < 8) :
    (effect (.push a) s).mem.read (effect (.push a) s).sp.toNat = if a = 7 then s.sp - 1 else s.regs[a.toNat] :=
  (s.read_pushed fun u => u.reg (regIndex a)).trans (s.reg_after_decrement ha)

theorem effect_call_top (a : Byte) (s : State) :
    (effect (.call a) s).mem.read (effect (.call a) s).sp.toNat = returnAddress s := s.read_pushed returnAddress

/-- Settles O24: the byte on top of the stack after the PUSH is the value pushed, and the stack pointer there is one below
the old one. -/
theorem pushThenPopMoves : Obligations.PushThenPopMoves := by
  intro a b s ha hb v hsp hv hv255
  set t := effect (.push a) s
  have hpush : exec (.push a) s = .next t := exec_push_ok ha hsp
  have htop : t.mem.read t.sp.toNat = v := (effect_push_top s ha).trans hv.symm
  have htsp : t.sp = s.sp - 1 := effect_push_sp a s
  have hpc : t.pc + 2 = s.pc + 4 := by
    change s.pc + 2 + 2 = s.pc + 4
    rw [BitVec.add_assoc]
    rfl
  by_cases h7 : b = 7
  · subst h7
    have hle : v.toNat ≤ 254 := by
      have hne : v.toNat ≠ 255 := fun h => hv255 rfl (BitVec.eq_of_toNat_eq h)
      omega
    refine ⟨t, _, hpush, exec_pop_seven_ok (htop ▸ hle), ?_⟩
    rw [effect_pop_seven, htop, if_pos rfl]
    exact ⟨Vector.set_set .., rfl, rfl, rfl, hpc⟩
  · refine ⟨t, _, hpush, exec_pop_ok hb h7 (htsp ▸ sp_sub_one_le hsp), ?_⟩
    have hb7 : b.toNat ≠ 7 := fun h => h7 (BitVec.eq_of_toNat_eq h)
    rw [effect_pop hb h7, htop, htsp, if_neg h7]
    exact ⟨set_between_sp_writes s hb hb7 v, rfl, rfl, rfl, hpc⟩

/-- Settles O25: RET pops the return address that CALL has pushed, and increments the stack pointer CALL decremented. -/
theorem callThenRetResumesAfterTheCall : Obligations.CallThenRetResumesAfterTheCall := by
  intro a s ha hsp hpc
  set t := effect (.call a) s
  have htsp : t.sp = s.sp - 1 := effect_call_sp a s
  have htop : t.mem.read t.sp.toNat = returnAddress s := effect_call_top a s
  refine ⟨t, _, exec_call_ok ha hsp, exec_ret_ok (htsp ▸ sp_sub_one_le hsp), ?_, ?_, rfl, rfl, rfl⟩
  · rw [effect, State.setPc_pc, zext9_toNat, htop, returnAddress_toNat hpc]
  · change (s.regs.set 7 (s.sp - 1)).set 7 (t.sp + 1) = s.regs
    rw [htsp, BitVec.sub_add_cancel, Vector.set_set]
    exact Vector.set_getElem_self _

/-! ### CMP and the conditional jumps -/

/-- Bit E after CMP says whether the registers are equal (R16, R133). -/
theorem effect_cmp_flagE (a b : Byte) (s : State) :
    (effect (.cmp a b) s).flagE = decide (s.reg (regIndex a) = s.reg (regIndex b)) := by
  simp only [effect, State.flagE, State.advance_fl, State.setFlags_fl]
  rcases Nat.lt_trichotomy (s.reg (regIndex a)).toNat (s.reg (regIndex b)).toNat with h | h | h
  · rw [compareFlags_lt h, decide_eq_false fun he => h.ne (congrArg _ he)]
    rfl
  · rw [compareFlags_eq h, decide_eq_true (BitVec.eq_of_toNat_eq h)]
    rfl
  · rw [compareFlags_gt h, decide_eq_false fun he => h.ne' (congrArg _ he)]
    rfl

theorem exec_jeq_ok {a : Byte} (s : State) (ha : a.toNat < 8) : exec (.jeq a) s = .next (effect (.jeq a) s) := by
  cases hE : s.flagE with
  | true => exact exec_completes_one (indexedOperands_jeq_taken a hE) rfl ha
  | false => exact exec_completes_nil (indexedOperands_jeq_not_taken a hE) rfl

theorem exec_jne_ok {a : Byte} (s : State) (ha : a.toNat < 8) : exec (.jne a) s = .next (effect (.jne a) s) := by
  cases hE : s.flagE with
  | true => exact exec_completes_nil (indexedOperands_jne_not_taken a hE) rfl
  | false => exact exec_completes_one (indexedOperands_jne_taken a hE) rfl ha

theorem effect_jeq_pc (a : Byte) (s : State) :
    (effect (.jeq a) s).pc = if s.flagE then zext9 (s.reg (regIndex a)) else s.pc + 2 := apply_ite State.pc ..
theorem effect_jne_pc (a : Byte) (s : State) :
    (effect (.jne a) s).pc = if s.flagE then s.pc + 2 else zext9 (s.reg (regIndex a)) := apply_ite State.pc ..

theorem effect_jeq_regs (a : Byte) (s : State) : (effect (.jeq a) s).regs = s.regs := by
  simp [effect, apply_ite State.regs]
theorem effect_jne_regs (a : Byte) (s : State) : (effect (.jne a) s).regs = s.regs := by
  simp [effect, apply_ite State.regs]

/-- Settles O26: bit E after the CMP is the equality of the two registers. -/
theorem compareDecidesTheConditionalJumps : Obligations.CompareDecidesTheConditionalJumps := by
  intro a b c s ha hb hc
  set t := effect (.cmp a b) s
  have hE : (t.flagE = true) = (s.regs[a.toNat] = s.regs[b.toNat]) := by
    rw [effect_cmp_flagE, s.reg_regIndex ha, s.reg_regIndex hb, decide_eq_true_eq]
  have hpc : t.pc + 2 = s.pc + 5 := by
    change s.pc + 3 + 2 = s.pc + 5
    rw [BitVec.add_assoc]
    rfl
  have hreg : zext9 (t.reg (regIndex c)) = (s.regs[c.toNat]).setWidth 9 := congrArg zext9 (t.reg_regIndex hc)
  refine ⟨t, _, _, exec_completes_two rfl rfl ha hb, exec_jeq_ok t hc, exec_jne_ok t hc, ?_, ?_, effect_jeq_regs c t,
    effect_jne_regs c t⟩
  · simp only [effect_jeq_pc, hE, hpc, hreg]
  · simp only [effect_jne_pc, hE, hpc, hreg]

/-! ### A push seen by the next fetch -/

/-- Settles O27: the PUSH writes the byte 0x01 into the cell its successor is fetched from, and 0x01 decodes to HLT whatever
follows it. -/
theorem pushedOpcodeIsFetchedNext : Obligations.PushedOpcodeIsFetchedNext := by
  intro a s ha h7 hrun hpc hop hopa hsp hreg
  set t := effect (.push a) s
  have hpush : step s = .next t := by
    have hd : s.decoded = .ok (.push a) := by
      rw [State.decoded, hop, hopa]
      rfl
    rw [step_of_decoded hrun (by omega) hd, exec_push_ok ha (by omega)]
  have htpc : t.pc.toNat = s.pc.toNat + 2 := by
    change (s.pc + 2).toNat = s.pc.toNat + 2
    bv_omega
  have hcell : t.mem.read t.pc.toNat = 0x01 := by
    have htop := effect_push_top s ha
    have haddr : (effect (.push a) s).sp.toNat = t.pc.toNat := by
      rw [effect_push_sp, sp_sub_one_toNat (by omega), hsp, htpc]
      rfl
    rwa [if_neg h7, hreg, haddr] at htop
  have hhlt : step t = .next (effect .hlt t) := by
    have hd : t.decoded = .ok .hlt := by
      rw [State.decoded, hcell]
      rfl
    have htrun : t.run = .running := hrun
    rw [step_of_decoded htrun (by omega) hd]
    exact exec_completes_nil rfl rfl
  refine ⟨t, _, hpush, hhlt, rfl, ?_⟩
  change (t.pc + 1).toNat = s.pc.toNat + 3
  bv_omega

end Sys2Proof.Machine
end

section
/-! PROOFS. Rules of the whole machine: memory, flags, output, registers and fatal errors (10_state.md, 20_memory.md,
60_exceptions.md). -/

namespace Sys2Proof.Machine

/-! ### The memory primitives -/

/-- Settles O28: the address is in range or not, and in range a write changes the cell it names and nothing else. -/
theorem memoryPrimitives : Obligations.MemoryPrimitives := by
  refine fun addr v s => ⟨fun h => ⟨memRead_error s h, memWrite_error v s h⟩, fun h0 h1 => ?_⟩
  refine ⟨⟨_, memRead_ok s h0 h1⟩, memRead_ok _ h0 h1, _, memWrite_ok v s h0 h1, ?_, fun x hx => ?_, rfl, fun hwf => ?_⟩
  · rw [memRead_ok _ h0 h1, Memory.read_write_self]
  · by_cases hr : x < 0 ∨ x > 255
    · rw [memRead_error _ hr, memRead_error _ hr]
    · have hne : x.toNat ≠ addr.toNat := by omega
      rw [memRead_ok _ (by omega) (by omega), memRead_ok _ (by omega) (by omega), Memory.read_write_ne _ _ hne]
  · exact Memory.wf_write v hwf (by omega)

/-! ### Completion and fatal errors of an instruction -/

/-- Settles O30. -/
theorem everyInstructionAnswersANextState : Obligations.EveryInstructionAnswersANextState := by
  intro i s
  cases h : handlerError i s with
  | none => exact ⟨_, exec_of_no_error h⟩
  | some e => exact ⟨_, exec_of_error h⟩

/-- The effect of an instruction in a running state is no FAULTED state. -/
theorem effect_run_ne_faulted {s : State} (hrun : s.run = .running) (i : Instr) (e : FatalError) :
    (effect i s).run ≠ .faulted e := by
  rw [effect_run, hrun]
  split <;> nofun

/-- An instruction raises exactly its first fatal error. -/
theorem exec_faults_iff {i : Instr} {s : State} (hrun : s.run = .running) (e : FatalError) :
    exec i s = .next { s with run := .faulted e } ↔ handlerError i s = some e := by
  refine ⟨fun h => ?_, exec_of_error⟩
  rcases exec_next h with ⟨-, ht⟩ | ⟨e', he', ht⟩
  · exact absurd (congrArg State.run ht).symm (effect_run_ne_faulted hrun i e)
  · cases congrArg State.run ht
    exact he'

/-- Settles O40. -/
theorem handlersRaiseTheFirstFatalError : Obligations.HandlersRaiseTheFirstFatalError :=
  fun _ _ hrun e => exec_faults_iff hrun e

/-- Settles O39: a step that ends in an effect leaves the run state RUNNING or HALTED. -/
theorem fatalErrorChangesOnlyTheRunState : Obligations.FatalErrorChangesOnlyTheRunState := by
  intro s t e h ht
  obtain ⟨hrun, ⟨e', -, rfl⟩ | ⟨i, -, -, -, rfl⟩⟩ := step_next h
  · cases ht
    rfl
  · exact absurd ht (effect_run_ne_faulted hrun i e)

theorem indexedOperands_subset (i : Instr) (s : State) : indexedOperands i s ⊆ i.regOperands := by
  cases i
  case jeq | jne => simp only [indexedOperands]; split <;> simp [Instr.regOperands]
  all_goals exact List.Subset.refl _

theorem indexedOperands_eq {i : Instr} (s : State) (hjeq : ∀ a, i ≠ .jeq a) (hjne : ∀ a, i ≠ .jne a) :
    indexedOperands i s = i.regOperands := by
  cases i
  case jeq a => exact absurd rfl (hjeq a)
  case jne a => exact absurd rfl (hjne a)
  all_goals rfl

theorem stackError_eq (i : Instr) (s : State) :
    stackError i s = none ∨ stackError i s = some (.outOfBoundsMemory (-1)) ∨
      stackError i s = some (.outOfBoundsMemory 256) := by
  cases i
  case push | call | pop | ret => simp only [stackError]; split_ifs <;> simp
  all_goals exact .inl rfl

/-- The first index that the check of R12 stops is one of those checked, and above 7. -/
theorem of_find?_badIndex {l : List Byte} {a : Byte} (h : l.find? (fun a => !namesRegister a) = some a) :
    a ∈ l ∧ 7 < a.toNat := by
  refine ⟨List.mem_of_find?_eq_some h, ?_⟩
  by_contra hle
  have hbad := List.find?_some h
  simp [namesRegister_of_lt (Nat.lt_succ_of_le (Nat.le_of_not_lt hle))] at hbad

/-- The fatal errors of a handler: a register index above 7 that it indexes with, or the stack pointer range rule. -/
theorem handlerError_some {i : Instr} {s : State} {e : FatalError} (h : handlerError i s = some e) :
    (∃ a ∈ indexedOperands i s, 7 < a.toNat ∧ e = .outOfBoundsRegister a) ∨ stackError i s = some e := by
  unfold handlerError at h
  split at h
  case h_1 a hfind =>
    cases h
    obtain ⟨hmem, hbad⟩ := of_find?_badIndex hfind
    exact .inl ⟨a, hmem, hbad, rfl⟩
  case h_2 => exact .inr h

/-- Settles O41: an index reported is one of the register operands and above 7; and where every register operand is
indexed, one above 7 is reported. -/
theorem wellFormedInstructionsIndexWithinBounds : Obligations.WellFormedInstructionsIndexWithinBounds := by
  intro i s hrun
  refine ⟨fun hwf k h => ?_, fun hwf hjeq hjne => ?_⟩
  · rcases handlerError_some ((exec_faults_iff hrun _).mp h) with ⟨a, ha, hbad, -⟩ | hstack
    · have := List.all_eq_true.mp hwf a (indexedOperands_subset i s ha)
      rw [namesRegister_of_gt hbad] at this
      cases this
    · rcases stackError_eq i s with h | h | h <;> rw [h] at hstack <;> cases hstack
  · obtain ⟨k, hk⟩ : ∃ k, i.regOperands.find? (fun a => !namesRegister a) = some k := by
      rw [← Option.isSome_iff_exists, List.find?_isSome]
      simpa [Instr.wellFormed] using hwf
    obtain ⟨hmem, hbad⟩ := of_find?_badIndex hk
    refine ⟨k, hmem, hbad, exec_of_error ?_⟩
    rw [handlerError, indexedOperands_eq s hjeq hjne, hk]

/-! ### The flags -/

/-- Settles O32: a step that changes FL ran an instruction to its end, and only the effect of CMP changes FL. -/
theorem onlyCmpWritesTheFlags : Obligations.OnlyCmpWritesTheFlags := by
  intro s t h hne
  obtain ⟨i, hd, -, rfl⟩ := step_changes State.fl (fun _ => rfl) h hne
  obtain ⟨a, b, rfl⟩ : ∃ a b, i = .cmp a b := by
    by_contra hcmp
    push Not at hcmp
    exact hne (effect_fl s hcmp)
  exact ⟨opcode_of_decoded hd, effect_cmp_fl a b s⟩

/-- The state with another value in FL. -/
def State.withFl (s : State) (f : Byte) : State := { s with fl := f }

/-- Which registers a handler indexes depends on bit E of FL alone, and its fatal error on nothing more. -/
theorem handlerError_withFl (i : Instr) {s : State} {f : Byte} (hE : f.getLsbD 0 = s.fl.getLsbD 0) :
    handlerError i (s.withFl f) = handlerError i s := by
  have hflag : (s.withFl f).flagE = s.flagE := hE
  cases i
  case jeq | jne => simp only [handlerError, indexedOperands, hflag]; rfl
  all_goals rfl

/-- The effect of an instruction other than CMP depends on bit E of FL alone, and keeps FL. -/
theorem effect_withFl {i : Instr} {s : State} {f : Byte} (hE : f.getLsbD 0 = s.fl.getLsbD 0) (hcmp : ∀ a b, i ≠ .cmp a b) :
    effect i (s.withFl f) = (effect i s).withFl f := by
  have hflag : (s.withFl f).flagE = s.flagE := hE
  cases i
  case cmp a b => exact absurd rfl (hcmp a b)
  case jeq | jne => simp only [effect, hflag]; split <;> rfl
  all_goals rfl

/-- Settles O33: another FL with the same bit E gives the same fatal error and the same effect up to FL; CMP of valid
indices overwrites FL. -/
theorem onlyTheEqualFlagIsRead : Obligations.OnlyTheEqualFlagIsRead := by
  intro i s t f h
  refine ⟨fun hE hcmp => ?_, ?_⟩
  · change exec i (s.withFl f) = .next (t.withFl f)
    rcases exec_next h with ⟨hnone, rfl⟩ | ⟨e, he, rfl⟩
    · rw [exec_of_no_error ((handlerError_withFl i hE).trans hnone), effect_withFl hE hcmp]
    · exact exec_of_error ((handlerError_withFl i hE).trans he)
  · rintro a b rfl ha hb
    rw [exec_completes_two rfl rfl ha hb] at h ⊢
    exact h

/-! ### Memory and output -/

/-- An instruction that raises no fatal error passes the stack pointer range rule. -/
theorem stackError_none_of_handlerError_none {i : Instr} {s : State} (h : handlerError i s = none) :
    stackError i s = none :=
  (handlerError_of_lt fun _ ha => lt_of_handlerError_none h ha).symm.trans h

/-- The range rule lets a push or a call through only from a stack pointer above 0. -/
theorem sp_pos_of_stackError_none {s : State} {a : Byte} (h : stackError (.push a) s = none) : 1 ≤ s.sp.toNat := by
  by_contra hlt
  have h0 : s.sp = 0 := BitVec.eq_of_toNat_eq (Nat.lt_one_iff.mp (Nat.lt_of_not_le hlt))
  rw [stackError, if_pos h0] at h
  cases h

theorem sp_pos_of_push {s : State} {a : Byte} (h : handlerError (.push a) s = none) : 1 ≤ s.sp.toNat :=
  sp_pos_of_stackError_none (stackError_none_of_handlerError_none h)
theorem sp_pos_of_call {s : State} {a : Byte} (h : handlerError (.call a) s = none) : 1 ≤ s.sp.toNat :=
  sp_pos_of_stackError_none (a := a) (stackError_none_of_handlerError_none h)

/-- The one cell that a push can change is the one below the stack pointer. -/
theorem sp_eq_of_read_pushed_ne {s : State} (value : State → Byte) {addr : Nat} (hsp : 1 ≤ s.sp.toNat)
    (h : (s.pushed value).mem.read addr ≠ s.mem.read addr) : s.sp.toNat = addr + 1 := by
  by_contra hne
  have haddr : addr ≠ (s.sp - 1).toNat := by
    rw [sp_sub_one_toNat hsp]
    omega
  exact h (by rw [State.pushed_mem, Memory.read_write_ne _ _ haddr])

/-- Settles O34: of the effects only those of PUSH and CALL change memory, in the cell below the stack pointer. -/
theorem onlyPushAndCallWriteMemory : Obligations.OnlyPushAndCallWriteMemory := by
  intro s t addr h hne
  obtain ⟨i, hd, hnone, rfl⟩ := step_changes (fun u => u.mem.read addr) (fun _ => rfl) h hne
  have hop := opcode_of_decoded hd
  cases i
  case push a => exact ⟨.inl hop, sp_eq_of_read_pushed_ne (fun u => u.reg (regIndex a)) (sp_pos_of_push hnone) hne⟩
  case call a => exact ⟨.inr hop, sp_eq_of_read_pushed_ne returnAddress (sp_pos_of_call hnone) hne⟩
  all_goals exact absurd (congrArg (Memory.read · addr) (effect_mem s (by simp) (by simp))) hne

/-- Settles O38: of the effects only that of PRN changes OUT, and its operand byte is the second byte fetched. -/
theorem onlyPrnWritesTheOutput : Obligations.OnlyPrnWritesTheOutput := by
  intro s t h hne
  obtain ⟨i, hd, hnone, rfl⟩ := step_changes State.out (fun _ => rfl) h hne
  obtain ⟨a, rfl⟩ : ∃ a, i = .prn a := by
    by_contra hprn
    push Not at hprn
    exact hne (effect_out s hprn)
  have hoperand : s.mem.read (s.pc.toNat + 1) = a := by
    have hprefix := encode_prefix_of_decode hd
    simp only [encode, Instr.operandBytes, List.cons_prefix_cons] at hprefix
    exact hprefix.2.1.symm
  have ha : a.toNat < 8 := lt_of_handlerError_none hnone (List.mem_singleton.mpr rfl)
  refine ⟨opcode_of_decoded hd, regIndex a, ?_, rfl, ?_⟩
  · rw [hoperand, regIndex_val ha]
  · simp [outPulse, effect]

end Sys2Proof.Machine
end

section
/-! PROOFS. The table of registers read and written (10_state.md section 1, rule R13): the frame of each instruction, and
that nothing depends on a register the table does not list as read. -/

namespace Sys2Proof.Machine

/-! ### Registers by number -/

theorem ne_regIndex {a : Byte} {r : Fin Config.nregs} (ha : a.toNat < 8) (h : r.val ≠ a.toNat) : r ≠ regIndex a :=
  fun he => h (by rw [he, regIndex_val ha])

theorem eq_regIndex {a : Byte} {r : Fin Config.nregs} (ha : a.toNat < 8) (h : r.val = a.toNat) : r = regIndex a :=
  Fin.ext (h.trans (regIndex_val ha).symm)

theorem ne_spIndex {r : Fin Config.nregs} (h : r.val ≠ 7) : r ≠ Config.spIndex := fun he => h (by rw [he]; rfl)

/-- The first operand of an instruction that raises no fatal error names a register. -/
theorem lt_of_handlerError_none_head {i : Instr} {s : State} {a : Byte} {l : List Byte} (h : handlerError i s = none)
    (hi : indexedOperands i s = a :: l) : a.toNat < 8 :=
  lt_of_handlerError_none h (hi ▸ List.mem_cons_self)

theorem lt_of_handlerError_none_second {i : Instr} {s : State} {a b : Byte} {l : List Byte} (h : handlerError i s = none)
    (hi : indexedOperands i s = a :: b :: l) : b.toNat < 8 :=
  lt_of_handlerError_none h (hi ▸ List.mem_cons_of_mem a List.mem_cons_self)

/-! ### The registers written -/

theorem State.popped_reg_ne (s : State) {r : Fin Config.nregs} (h : r ≠ Config.spIndex) : s.popped.reg r = s.reg r :=
  s.setReg_reg_ne _ h

theorem State.pushed_reg_ne (s : State) (value : State → Byte) {r : Fin Config.nregs} (h : r ≠ Config.spIndex) :
    (s.pushed value).reg r = s.reg r := s.setReg_reg_ne _ h

/-- The effect of an instruction on a register it does not write. -/
theorem effect_reg {i : Instr} {s : State} (hnone : handlerError i s = none) {r : Fin Config.nregs}
    (h : r.val ∉ writtenRegs i) : (effect i s).reg r = s.reg r := by
  cases i <;> simp only [writtenRegs, List.mem_cons, List.not_mem_nil, or_false, not_or] at h
  case hlt | prn | jmp | cmp => rfl
  case jeq | jne => simp only [effect]; split <;> rfl
  case ldi | add | mul => exact s.setReg_reg_ne _ (ne_regIndex (lt_of_handlerError_none_head hnone rfl) h)
  case push a => exact s.pushed_reg_ne (fun u => u.reg (regIndex a)) (ne_spIndex h)
  case call => exact s.pushed_reg_ne returnAddress (ne_spIndex h)
  case ret => exact s.popped_reg_ne (ne_spIndex h)
  case pop =>
    obtain ⟨ha, h7⟩ := h
    exact (State.popped_reg_ne _ (ne_spIndex h7)).trans
      (s.setReg_reg_ne _ (ne_regIndex (lt_of_handlerError_none_head hnone rfl) ha))

/-- Settles O36: a fatal error keeps every register, and an effect keeps those the table does not list. -/
theorem registersOutsideTheTableAreKept : Obligations.RegistersOutsideTheTableAreKept := by
  intro i s t h r hr
  rcases exec_next h with ⟨hnone, rfl⟩ | ⟨e, -, rfl⟩
  · exact effect_reg hnone hr
  · rfl

/-! ### The registers read -/

/-- Writes of two registers commute. -/
theorem State.setReg_comm (s : State) {r q : Fin Config.nregs} (v w : Byte) (h : r ≠ q) :
    (s.setReg r v).setReg q w = (s.setReg q w).setReg r v := by
  have hval : r.val ≠ q.val := fun he => h (Fin.ext he)
  simp only [State.setReg, Vector.set_comm _ _ hval]

theorem State.setReg_sp_ne (s : State) {r : Fin Config.nregs} (v : Byte) (h : r ≠ Config.spIndex) :
    (s.setReg r v).sp = s.sp := s.setReg_reg_ne v h.symm

/-- A push carries along a register that it does not use and that its value does not depend on. -/
theorem State.setReg_pushed (s : State) {r : Fin Config.nregs} (v : Byte) {value : State → Byte}
    (h : r ≠ Config.spIndex) (hvalue : ∀ u : State, value (u.setReg r v) = value u) :
    (s.setReg r v).pushed value = (s.pushed value).setReg r v := by
  rw [State.pushed, s.setReg_sp_ne v h, s.setReg_comm v _ h, hvalue]
  rfl

theorem State.setReg_popped (s : State) {r : Fin Config.nregs} (v : Byte) (h : r ≠ Config.spIndex) :
    (s.setReg r v).popped = s.popped.setReg r v := by
  rw [State.popped, s.setReg_sp_ne v h, s.setReg_comm v _ h, State.popped]

theorem State.setReg_jumped (s : State) {r : Fin Config.nregs} {a : Byte} (v : Byte) (h : r ≠ regIndex a) :
    (s.setReg r v).jumped a = (s.jumped a).setReg r v := by
  rw [State.jumped, s.setReg_reg_ne v h.symm]
  rfl

/-- A fatal error depends on no register but the stack pointer, where that is read. -/
theorem handlerError_setReg {i : Instr} {s : State} {r : Fin Config.nregs} (v : Byte) (h : r.val ∉ readRegs i s) :
    handlerError i (s.setReg r v) = handlerError i s := by
  cases i
  case push | call | pop | ret =>
    have h7 : r.val ≠ 7 := fun he => h (by simp [readRegs, he])
    simp only [handlerError, stackError, s.setReg_sp_ne v (ne_spIndex h7)]
    rfl
  all_goals rfl

/-- The effect of an instruction carries along a register that it neither reads nor writes. -/
theorem effect_setReg {i : Instr} {s : State} (hnone : handlerError i s = none) {r : Fin Config.nregs} (v : Byte)
    (hread : r.val ∉ readRegs i s) (hwritten : r.val ∉ writtenRegs i) :
    effect i (s.setReg r v) = (effect i s).setReg r v := by
  cases i <;> simp only [readRegs, writtenRegs, List.mem_cons, List.not_mem_nil, or_false, not_or] at hread hwritten
  case hlt => rfl
  case ldi a b =>
    have hra := ne_regIndex (lt_of_handlerError_none_head hnone rfl) hwritten
    rw [effect, s.setReg_comm v _ hra]
    rfl
  case prn a =>
    have hra := ne_regIndex (lt_of_handlerError_none_head hnone rfl) hread
    rw [effect, s.setReg_reg_ne v hra.symm]
    rfl
  case push a =>
    obtain ⟨h7, hread⟩ := hread
    have hra := ne_regIndex (lt_of_handlerError_none_head hnone rfl) hread
    rw [effect, s.setReg_pushed v (ne_spIndex h7) fun u => u.setReg_reg_ne v hra.symm]
    rfl
  case call a =>
    obtain ⟨h7, hread⟩ := hread
    have hra := ne_regIndex (lt_of_handlerError_none_head hnone rfl) hread
    rw [effect, s.setReg_pushed v (ne_spIndex h7) fun u => rfl, State.setReg_jumped _ v hra]
    rfl
  case pop a =>
    obtain ⟨ha, h7⟩ := hwritten
    have hra := ne_regIndex (lt_of_handlerError_none_head hnone rfl) ha
    rw [effect, s.setReg_sp_ne v (ne_spIndex h7), s.setReg_comm v _ hra, State.setReg_popped _ v (ne_spIndex h7)]
    rfl
  case ret =>
    rw [effect, s.setReg_sp_ne v (ne_spIndex hread), s.setReg_popped v (ne_spIndex hread)]
    rfl
  case jmp a => exact s.setReg_jumped v (ne_regIndex (lt_of_handlerError_none_head hnone rfl) hread)
  case jeq a =>
    have hflag : (s.setReg r v).flagE = s.flagE := rfl
    cases hE : s.flagE with
    | true =>
      have ha : a.toNat < 8 := lt_of_handlerError_none_head hnone (indexedOperands_jeq_taken a hE)
      have hne : r ≠ regIndex a := ne_regIndex ha (by simpa [hE] using hread)
      rw [effect_jeq_taken a (hflag.trans hE), effect_jeq_taken a hE, s.setReg_jumped v hne]
    | false =>
      rw [effect_jeq_not_taken a (hflag.trans hE), effect_jeq_not_taken a hE]
      rfl
  case jne a =>
    have hflag : (s.setReg r v).flagE = s.flagE := rfl
    cases hE : s.flagE with
    | true =>
      rw [effect_jne_not_taken a (hflag.trans hE), effect_jne_not_taken a hE]
      rfl
    | false =>
      have ha : a.toNat < 8 := lt_of_handlerError_none_head hnone (indexedOperands_jne_taken a hE)
      have hne : r ≠ regIndex a := ne_regIndex ha (by simpa [hE] using hread)
      rw [effect_jne_taken a (hflag.trans hE), effect_jne_taken a hE, s.setReg_jumped v hne]
  case add a b | mul a b =>
    obtain ⟨ha, hb⟩ := hread
    have hra := ne_regIndex (lt_of_handlerError_none_head hnone rfl) ha
    have hrb := ne_regIndex (lt_of_handlerError_none_second hnone rfl) hb
    rw [effect, s.setReg_reg_ne v hra.symm, s.setReg_reg_ne v hrb.symm, s.setReg_comm v _ hra]
    rfl
  case cmp a b =>
    obtain ⟨ha, hb⟩ := hread
    have hra := ne_regIndex (lt_of_handlerError_none_head hnone rfl) ha
    have hrb := ne_regIndex (lt_of_handlerError_none_second hnone rfl) hb
    rw [effect, s.setReg_reg_ne v hra.symm, s.setReg_reg_ne v hrb.symm]
    rfl

/-- Only LDI and POP write a register that they do not read, and they overwrite it. -/
theorem effect_setReg_written {i : Instr} {s : State} (hnone : handlerError i s = none) {r : Fin Config.nregs} (v : Byte)
    (hread : r.val ∉ readRegs i s) (hwritten : r.val ∈ writtenRegs i) : effect i (s.setReg r v) = effect i s := by
  cases i <;> simp only [readRegs, writtenRegs, List.mem_cons, List.not_mem_nil, or_false, not_or] at hread hwritten
  case ldi a b =>
    rw [eq_regIndex (lt_of_handlerError_none_head hnone rfl) hwritten, effect, State.setReg_setReg, effect]
  case pop a =>
    have hra := eq_regIndex (lt_of_handlerError_none_head hnone rfl) (hwritten.resolve_right hread)
    rw [effect, s.setReg_sp_ne v (ne_spIndex hread), hra, State.setReg_setReg, effect]
    rfl
  case add | mul | push | call => exact absurd hwritten hread.1
  case ret => exact absurd hwritten hread

/-- Settles O37: the fatal error does not depend on the register, and the effect carries it along or overwrites it. -/
theorem onlyTheRegistersOfTheTableAreRead : Obligations.OnlyTheRegistersOfTheTableAreRead := by
  intro i s t r v h hread
  have herror := handlerError_setReg v hread
  rcases exec_next h with ⟨hnone, rfl⟩ | ⟨e, he, rfl⟩
  · rw [exec_of_no_error (herror.trans hnone)]
    exact ⟨fun hwritten => by rw [effect_setReg hnone v hread hwritten],
      fun hwritten _ => by rw [effect_setReg_written hnone v hread hwritten]⟩
  · exact ⟨fun _ => exec_of_error (herror.trans he), fun _ hnone => by rw [hnone] at he; cases he⟩

end Sys2Proof.Machine
end

section
/-! PROOFS. The movement of the program counter (40_execution_loop.md section 4) and the memory accesses of a step
(20_memory.md section 2). -/

namespace Sys2Proof.Machine

/-! ### The program counter -/

/-- Below the top of memory the 9-bit sum does not wrap (D2). -/
theorem pc_add_toNat {s : State} (hpc : s.pc.toNat ≤ 253) (n : Nat) (hn : n ≤ 3) :
    (s.pc + BitVec.ofNat 9 n).toNat = s.pc.toNat + n := by
  rw [BitVec.toNat_add, BitVec.toNat_ofNat]
  omega

/-- The PCSET bit is the "PC self-sets?" column (R51, R58). -/
theorem setsPc_opcode (i : Instr) : setsPc i.opcode = i.selfSetting := by
  cases i <;> simp [setsPc, Instr.opcode, Instr.selfSetting]

/-- An instruction that does not set the program counter itself moves it by its length (R78). -/
theorem effect_pc_of_sequential {i : Instr} {s : State} (hpc : s.pc.toNat ≤ 253) (h : i.selfSetting = false) :
    (effect i s).pc.toNat = s.pc.toNat + i.operandBytes.length + 1 := by
  cases i
  case hlt => exact pc_add_toNat hpc 1 (by decide)
  case prn | push | pop => exact pc_add_toNat hpc 2 (by decide)
  case ldi | add | mul | cmp => exact pc_add_toNat hpc 3 (by decide)
  case call | ret | jmp | jeq | jne => cases h

/-- The instructions whose PCSET bit is set (R76). -/
theorem setsPc_opcode_iff (i : Instr) :
    setsPc i.opcode = true ↔ i = .ret ∨ ∃ a, i = .call a ∨ i = .jmp a ∨ i = .jeq a ∨ i = .jne a := by
  rw [setsPc_opcode]
  cases i <;> simp [Instr.selfSetting]

/-- A jump to a register leaves its value in the program counter. -/
theorem State.jumped_pc_toNat (s : State) {a : Byte} (ha : a.toNat < 8) :
    (s.jumped a).pc.toNat = (s.regs[a.toNat]).toNat := by
  rw [State.jumped_pc, zext9_toNat, s.reg_regIndex ha]

/-- CALL reads its register after the push (D14). -/
theorem effect_call_pc {s : State} {a : Byte} (ha : a.toNat < 8) :
    (effect (.call a) s).pc.toNat = (if a = 7 then s.sp - 1 else s.regs[a.toNat]).toNat := by
  rw [effect, State.jumped_pc, zext9_toNat, State.pushed_reg, s.reg_after_decrement ha]

/-- Settles O31: a state without a fatal error is the effect of its instruction, whose rows are the lemmas above. -/
theorem programCounterMovement : Obligations.ProgramCounterMovement := by
  refine ⟨fun i s t hpc hrun h hfault => ?_, fun a s hpc => ⟨fun hE => ?_, fun hE => ?_⟩⟩
  · obtain ⟨hnone, rfl⟩ : handlerError i s = none ∧ t = effect i s := by
      rcases exec_next h with ht | ⟨e, -, rfl⟩
      · exact ht
      · exact absurd rfl (hfault e)
    have hseq := effect_pc_of_sequential (i := i) hpc
    refine ⟨fun h => hseq ((setsPc_opcode i).symm.trans h), ?hlt, ?two, ?three, ?call, ?ret, ?jmp, ?jeq, ?jne,
      setsPc_opcode_iff i⟩
    case hlt => rintro rfl; exact hseq rfl
    case two => rintro a (rfl | rfl | rfl) <;> exact hseq rfl
    case three => rintro a b (rfl | rfl | rfl | rfl) <;> exact hseq rfl
    case call =>
      rintro a rfl
      have ha := lt_of_handlerError_none_head hnone rfl
      exact ⟨ha, effect_call_pc ha⟩
    case ret =>
      rintro rfl
      exact zext9_toNat _
    case jmp =>
      rintro a rfl
      have ha := lt_of_handlerError_none_head hnone rfl
      exact ⟨ha, s.jumped_pc_toNat ha⟩
    case jeq =>
      rintro a rfl
      refine ⟨fun hE => ?_, fun hE => ?_⟩
      · have ha := lt_of_handlerError_none_head hnone (indexedOperands_jeq_taken a hE)
        exact ⟨ha, by rw [effect_jeq_taken a hE, s.jumped_pc_toNat ha]⟩
      · rw [effect_jeq_not_taken a hE]
        exact pc_add_toNat hpc 2 (by decide)
    case jne =>
      rintro a rfl
      refine ⟨fun hE => ?_, fun hE => ?_⟩
      · have ha := lt_of_handlerError_none_head hnone (indexedOperands_jne_taken a hE)
        exact ⟨ha, by rw [effect_jne_taken a hE, s.jumped_pc_toNat ha]⟩
      · rw [effect_jne_not_taken a hE]
        exact pc_add_toNat hpc 2 (by decide)
  · exact ⟨_, exec_jeq_not_taken a hE, rfl, pc_add_toNat hpc 2 (by decide)⟩
  · exact ⟨_, exec_jne_not_taken a hE, rfl, pc_add_toNat hpc 2 (by decide)⟩

/-! ### The accesses of an instruction -/

theorem handlerAccesses_push {s : State} {a : Byte} (ha : a.toNat < 8) (hsp : 1 ≤ s.sp.toNat) :
    handlerAccesses (.push a) s =
      [.write (s.sp.toNat - 1) (if a = 7 then s.sp - 1 else s.regs[a.toNat])] := by
  rw [← s.reg_after_decrement ha, regIndex_eq ha]
  simp only [handlerAccesses, regOperand_ok ha, pushAccesses_ok _ hsp]

theorem handlerAccesses_call {s : State} {a : Byte} (ha : a.toNat < 8) (hsp : 1 ≤ s.sp.toNat) :
    handlerAccesses (.call a) s = [.write (s.sp.toNat - 1) (returnAddress s)] := by
  simp only [handlerAccesses, regOperand_ok ha, pushAccesses_ok _ hsp]
  rfl

theorem handlerAccesses_pop {a : Byte} (s : State) (ha : a.toNat < 8) :
    handlerAccesses (.pop a) s = [.read s.sp.toNat] := by
  simp only [handlerAccesses, regOperand_ok ha]

/-- A push or a call from a stack pointer of 0 makes no access (R102). -/
theorem handlerAccesses_sp_zero {s : State} (a : Byte) (hsp : s.sp = 0) :
    handlerAccesses (.push a) s = [] ∧ handlerAccesses (.call a) s = [] := by
  have h0 : s.sp.toNat = 0 := by rw [hsp]; rfl
  rcases regOperand_cases a with ⟨ha, h⟩ | ⟨ha, h⟩ <;> simp [handlerAccesses, h, pushAccesses_error _ h0]

/-- Where the index check faults no access is made (R157). -/
theorem handlerAccesses_bad_index {a : Byte} (s : State) (ha : 7 < a.toNat) :
    handlerAccesses (.push a) s = [] ∧ handlerAccesses (.call a) s = [] ∧ handlerAccesses (.pop a) s = [] := by
  simp only [handlerAccesses, regOperand_error ha, and_self]

/-- A completed instruction changes memory by its accesses alone: for PUSH and CALL one write, for the others reads. -/
theorem effect_mem_eq_accesses {i : Instr} {s : State} (hnone : handlerError i s = none) :
    (effect i s).mem = (handlerAccesses i s).foldl Access.apply s.mem := by
  cases i
  case push a =>
    have ha : a.toNat < 8 := lt_of_handlerError_none_head hnone rfl
    have hsp := sp_pos_of_push hnone
    rw [handlerAccesses_push ha hsp, effect, State.advance_mem, State.pushed_mem, s.reg_after_decrement ha,
      sp_sub_one_toNat hsp]
    rfl
  case call a =>
    have hsp := sp_pos_of_call hnone
    rw [handlerAccesses_call (lt_of_handlerError_none_head hnone rfl) hsp, effect, State.jumped_mem, State.pushed_mem,
      sp_sub_one_toNat hsp]
    rfl
  case pop a =>
    rw [handlerAccesses_pop s (lt_of_handlerError_none_head hnone rfl), effect_mem s (by simp) (by simp)]
    rfl
  all_goals exact effect_mem s (by simp) (by simp)

/-- Reads alone change nothing. -/
theorem foldl_apply_of_reads {l : List Access} (m : Memory) (h : ∀ x ∈ l, ∃ addr, x = .read addr) :
    l.foldl Access.apply m = m := by
  induction l with
  | nil => rfl
  | cons x l ih =>
    obtain ⟨hx, hl⟩ := List.forall_mem_cons.mp h
    obtain ⟨addr, rfl⟩ := hx
    exact ih hl

theorem sp_zero_of_stackError_some {s : State} {a : Byte} {e : FatalError} (h : stackError (.push a) s = some e) :
    s.sp = 0 := by
  by_contra hne
  rw [stackError, if_neg hne] at h
  cases h

/-- An instruction that faults has made no write: the write of a push comes after both checks. -/
theorem handlerAccesses_reads_of_error {i : Instr} {s : State} {e : FatalError} (h : handlerError i s = some e) :
    ∀ x ∈ handlerAccesses i s, ∃ addr, x = .read addr := by
  cases i
  case push a =>
    have hnil : handlerAccesses (.push a) s = [] := by
      rcases handlerError_some h with ⟨k, hk, hbad, -⟩ | hstack
      · obtain rfl := List.mem_singleton.mp hk
        exact (handlerAccesses_bad_index s hbad).1
      · exact (handlerAccesses_sp_zero a (sp_zero_of_stackError_some hstack)).1
    simp [hnil]
  case call a =>
    have hnil : handlerAccesses (.call a) s = [] := by
      rcases handlerError_some h with ⟨k, hk, hbad, -⟩ | hstack
      · obtain rfl := List.mem_singleton.mp hk
        exact (handlerAccesses_bad_index s hbad).2.1
      · exact (handlerAccesses_sp_zero a (sp_zero_of_stackError_some (a := a) hstack)).2
    simp [hnil]
  case pop a =>
    rcases regOperand_cases a with ⟨ha, -⟩ | ⟨ha, -⟩
    · simp [handlerAccesses_pop s ha]
    · simp [(handlerAccesses_bad_index s ha).2.2]
  all_goals simp [handlerAccesses]

/-- Memory after an instruction is memory before it with the instruction's accesses made (R39). -/
theorem exec_mem {i : Instr} {s t : State} (h : exec i s = .next t) :
    t.mem = (handlerAccesses i s).foldl Access.apply s.mem := by
  rcases exec_next h with ⟨hnone, rfl⟩ | ⟨e, he, rfl⟩
  · exact effect_mem_eq_accesses hnone
  · exact (foldl_apply_of_reads s.mem (handlerAccesses_reads_of_error he)).symm

/-! ### The accesses of a step -/

theorem fetchAccesses_reads (s : State) : ∀ x ∈ fetchAccesses s, ∃ addr, x = .read addr := by
  intro x hx
  obtain ⟨addr, -, rfl⟩ := List.mem_map.mp hx
  exact ⟨addr, rfl⟩

theorem stepAccesses_of_decoded {s : State} {i : Instr} (hrun : s.run = .running) (hpc : s.pc.toNat ≤ 253)
    (hd : s.decoded = .ok i) : stepAccesses s = fetchAccesses s ++ handlerAccesses i s := by
  rw [State.decoded] at hd
  rw [stepAccesses_ok hrun hpc]
  simp only [hd]

theorem stepAccesses_of_rejected {s : State} {r : Reject} (hrun : s.run = .running) (hpc : s.pc.toNat ≤ 253)
    (hd : s.decoded = .error r) : stepAccesses s = fetchAccesses s := by
  rw [State.decoded] at hd
  rw [stepAccesses_ok hrun hpc]
  simp only [hd, List.append_nil]

theorem stepAccesses_of_fetch_fault {s : State} (hrun : s.run = .running) (hpc : 254 ≤ s.pc.toNat) :
    stepAccesses s = fetchAccesses s := by
  simp only [stepAccesses, hrun, fetch_error hpc, List.append_nil]

theorem stepAccesses_of_not_running {s : State} (hrun : s.run ≠ .running) : stepAccesses s = [] := by
  cases h : s.run <;> simp_all [stepAccesses]

/-- Memory after a step is memory before it with the step's accesses made (R39). -/
theorem step_mem {s t : State} (h : step s = .next t) : t.mem = (stepAccesses s).foldl Access.apply s.mem := by
  obtain ⟨hrun, hcases⟩ := step_next h
  have hfetch : (fetchAccesses s).foldl Access.apply s.mem = s.mem := foldl_apply_of_reads _ (fetchAccesses_reads s)
  have hdecoded : ∀ i, s.pc.toNat ≤ 253 → s.decoded = .ok i →
      t.mem = (stepAccesses s).foldl Access.apply s.mem := by
    intro i hpc hd
    rw [stepAccesses_of_decoded hrun hpc hd, List.foldl_append, hfetch]
    exact exec_mem ((step_of_decoded hrun hpc hd).symm.trans h)
  rcases hcases with ⟨e, hraises, rfl⟩ | ⟨i, hpc, hd, -, -⟩
  · cases hraises with
    | fetch hpc => rw [stepAccesses_of_fetch_fault hrun hpc, hfetch]
    | dispatch hpc hd => rw [stepAccesses_of_rejected hrun hpc hd, hfetch]
    | handler hpc hd he => exact hdecoded _ hpc hd
  · exact hdecoded i hpc hd

/-- The fetch reads at the top of memory: those of addresses that exist (D3). -/
theorem fetchAccesses_at_254 {s : State} (h : s.pc.toNat = 254) : fetchAccesses s = [.read 254, .read 255] := by
  rw [fetchAccesses, h]
  rfl
theorem fetchAccesses_at_255 {s : State} (h : s.pc.toNat = 255) : fetchAccesses s = [.read 255] := by
  rw [fetchAccesses, h]
  rfl
theorem fetchAccesses_above {s : State} (h : 256 ≤ s.pc.toNat) : fetchAccesses s = [] := by
  simp [fetchAccesses, Nat.not_lt.mpr h]

theorem returnAddress_eq {s : State} (hpc : s.pc.toNat ≤ 253) : returnAddress s = BitVec.ofNat 8 (s.pc.toNat + 2) := by
  apply BitVec.eq_of_toNat_eq
  rw [returnAddress_toNat hpc, BitVec.toNat_ofNat]
  omega

/-- Settles O35: memory by `exec_mem` and `step_mem`, and the accesses row by row. -/
theorem memoryAccessesOfAStep : Obligations.MemoryAccessesOfAStep := by
  refine ⟨fun _ _ _ => exec_mem, fun _ _ => step_mem,
    fun a s ha hsp => ⟨handlerAccesses_push ha hsp, fun hpc => ?call⟩,
    fun a s => handlerAccesses_sp_zero a, fun a s => handlerAccesses_pop s, fun s => rfl,
    fun a s => handlerAccesses_bad_index s, fun a b s => ⟨rfl, rfl, rfl, rfl, rfl, rfl, rfl, rfl, rfl⟩,
    fun s hrun hpc => ⟨fun i hd => ?decoded, fun r hd => ?rejected⟩,
    fun s hrun => ⟨fun h => ?at254, fun h => ?at255, fun h => ?above⟩, fun s => stepAccesses_of_not_running⟩
  case call => rw [handlerAccesses_call ha hsp, returnAddress_eq hpc]
  case decoded => rw [stepAccesses_of_decoded hrun hpc hd, fetchAccesses_ok hpc]
  case rejected => rw [stepAccesses_of_rejected hrun hpc hd, fetchAccesses_ok hpc]
  case at254 => rw [stepAccesses_of_fetch_fault hrun h.ge, fetchAccesses_at_254 h]
  case at255 => rw [stepAccesses_of_fetch_fault hrun (by omega), fetchAccesses_at_255 h]
  case above => rw [stepAccesses_of_fetch_fault hrun (by omega), fetchAccesses_above h]

end Sys2Proof.Machine
end

section
/-! PROOFS. Reset, the ports, the invariant and runs (60_exceptions.md section 1, 70_reset_and_hazards.md, 10_state.md
sections 7 and 8, 40_execution_loop.md section 6). -/

namespace Sys2Proof.Machine

/-! ### Reset and the ports -/

/-- Settles O43. -/
theorem resetStateValues : Obligations.ResetStateValues := ⟨rfl, rfl, rfl, rfl, rfl, Memory.read_nil⟩

/-- An image forms the reset state with the image in memory, unless it is too long (R181, R187). -/
theorem resetWith_of_le {image : List Byte} (h : image.length ≤ 256) :
    State.resetWith image = some { State.reset with mem := Memory.ofImage image } := if_pos h
theorem resetWith_of_gt {image : List Byte} (h : 256 < image.length) : State.resetWith image = none :=
  if_neg (Nat.not_le.mpr h)

/-- A cell of a loaded image holds its byte, or zero beyond the image (R187). -/
theorem Memory.read_ofImage (image : List Byte) {k : Nat} (hk : k < 256) :
    (Memory.ofImage image).read k = image.getD k 0 := by
  rw [Memory.ofImage, Memory.read_storeFrom image [] 0 k hk, Nat.zero_add, Nat.sub_zero]
  split
  case isTrue => rfl
  case isFalse h => simp_all

/-- Settles O44. -/
theorem resetWithAnImage : Obligations.ResetWithAnImage := fun image _ =>
  ⟨fun h => ⟨_, resetWith_of_le h, fun _ hk => Memory.read_ofImage image hk, Memory.wf_ofImage image, rfl⟩,
    resetWith_of_gt⟩

/-- Settles O45: the load port writes one cell. -/
theorem resetSignalAndLoadPort : Obligations.ResetSignalAndLoadPort := fun s addr data =>
  ⟨rfl, rfl, Memory.read_write_self s.mem _ data, fun _ hx => Memory.read_write_ne s.mem data hx,
    fun hwf => Memory.wf_write data hwf addr.isLt⟩

/-- The info value of an error that records a byte is that byte with a zero bit before it (R26, R150). -/
theorem ofInt_byte_toNat (k : Byte) : BitVec.ofInt 9 k.toNat = k.setWidth 9 := by
  apply BitVec.eq_of_toNat_eq
  simp

theorem statusPorts_of_faulted {s : State} {e : FatalError} (h : s.run = .faulted e) :
    statusPorts s = ⟨false, true, BitVec.ofNat 3 e.code, some (BitVec.ofInt 9 e.info)⟩ := by
  rw [statusPorts, h]

/-- Settles O42: the signals by the three run states, and the code and info of each cause. -/
theorem statusSignalsReportTheRunState : Obligations.StatusSignalsReportTheRunState := by
  intro s
  refine ⟨?halted, ?fault, ?noCause, fun h => ?_, fun h => ?_, fun k h => ?_, fun ir h => ?_, fun ir h => ?_⟩
  case halted | fault | noCause => cases hrun : s.run <;> simp [statusPorts, hrun]
  all_goals rw [statusPorts_of_faulted h]
  · exact ⟨rfl, rfl⟩
  · exact ⟨rfl, rfl⟩
  · exact ⟨rfl, congrArg some (ofInt_byte_toNat k)⟩
  · exact ⟨rfl, congrArg some (ofInt_byte_toNat ir)⟩
  · exact ⟨rfl, congrArg some (ofInt_byte_toNat ir)⟩

/-! ### The invariant, part by part -/

theorem inv_iff (s : State) :
    s.inv = true ↔ s.mem.wf = true ∧ s.pc.toNat ≤ 256 ∧ flLegal s.fl = true ∧ s.run.legal = true := by
  simp [State.inv, and_assoc]

/-- Settles O46. -/
theorem resetMeetsTheInvariant : Obligations.ResetMeetsTheInvariant :=
  (inv_iff _).mpr ⟨rfl, by decide, rfl, rfl⟩

/-- A reset with any image meets the invariant. -/
theorem inv_of_resetWith {image : List Byte} {s : State} (h : State.resetWith image = some s) : s.inv = true := by
  unfold State.resetWith at h
  split at h <;> cases h
  obtain ⟨-, hpc, hfl, hlegal⟩ := (inv_iff _).mp resetMeetsTheInvariant
  exact (inv_iff _).mpr ⟨Memory.wf_ofImage image, hpc, hfl, hlegal⟩

theorem effect_mem_wf (i : Instr) {s : State} (h : s.mem.wf = true) : (effect i s).mem.wf = true := by
  cases i
  case push | call => exact Memory.wf_write _ h (s.sp - 1).isLt
  all_goals rwa [effect_mem s (by simp) (by simp)]

theorem zext9_toNat_le (v : Byte) : (zext9 v).toNat ≤ 256 := by
  rw [zext9_toNat]
  exact v.isLt.le

/-- From an address that leaves room for three bytes the program counter comes to 256 at most (R15). -/
theorem effect_pc_le (i : Instr) {s : State} (hpc : s.pc.toNat ≤ 253) : (effect i s).pc.toNat ≤ 256 := by
  have hadvance : (s.advance 2).pc.toNat ≤ 256 := by
    rw [State.advance_pc]
    exact (pc_add_toNat hpc 2 (by decide)).trans_le (by omega)
  cases i
  case call | ret | jmp => exact zext9_toNat_le _
  case jeq => simp only [effect]; split <;> [exact zext9_toNat_le _; exact hadvance]
  case jne => simp only [effect]; split <;> [exact hadvance; exact zext9_toNat_le _]
  all_goals
    rw [effect_pc_of_sequential hpc rfl]
    simp only [Instr.operandBytes, List.length_cons, List.length_nil]
    omega

theorem effect_fl_legal (i : Instr) {s : State} (h : flLegal s.fl = true) : flLegal (effect i s).fl = true := by
  by_cases hcmp : ∃ a b, i = .cmp a b
  · obtain ⟨a, b, rfl⟩ := hcmp
    rcases effect_cmp_fl a b s with hfl | hfl | hfl <;> rw [hfl] <;> rfl
  · push Not at hcmp
    rwa [effect_fl s hcmp]

theorem effect_run_legal (i : Instr) {s : State} (h : s.run.legal = true) : (effect i s).run.legal = true := by
  rw [effect_run]
  split
  · rfl
  · exact h

/-! ### The fatal errors that a step can raise -/

theorem handlerError_legal {i : Instr} {s : State} {e : FatalError} (h : handlerError i s = some e) :
    e.legal = true := by
  rcases handlerError_some h with ⟨a, -, hbad, rfl⟩ | hstack
  · exact decide_eq_true hbad
  · rcases stackError_eq i s with h | h | h <;> rw [h] at hstack <;> cases hstack <;> rfl

theorem rejectError_legal {ir a b : Byte} {r : Reject} (h : decode ir a b = .error r) : (rejectError r).legal = true := by
  rcases decode_cases ir a b with ⟨-, i, -, hd⟩ | ⟨hmem, hbit, hd⟩ | ⟨hmem, hbit, hd⟩ <;> rw [hd] at h <;> cases h
  all_goals simp_all [rejectError, FatalError.legal, isAlu, opcodes]

/-- From a program counter of at most 256 a step raises only errors the spec lists (R150 to R154). -/
theorem stepRaises_legal {s : State} {e : FatalError} (hpc : s.pc.toNat ≤ 256) (h : StepRaises s e) :
    e.legal = true := by
  cases h with
  | fetch =>
    have hmax : max (256 : Int) s.pc.toNat = 256 := by omega
    rw [hmax]
    rfl
  | dispatch _ hd => exact rejectError_legal hd
  | handler _ _ he => exact handlerError_legal he

/-- Settles O47: a fatal error changes the run state alone, to a legal one; an effect keeps each part of the invariant. -/
theorem stepKeepsTheInvariant : Obligations.StepKeepsTheInvariant := by
  intro s t hinv h
  obtain ⟨hwf, hpc, hfl, hlegal⟩ := (inv_iff s).mp hinv
  obtain ⟨-, ⟨e, he, rfl⟩ | ⟨i, hpc253, -, -, rfl⟩⟩ := step_next h
  · exact (inv_iff _).mpr ⟨hwf, hpc, hfl, stepRaises_legal hpc he⟩
  · exact (inv_iff _).mpr
      ⟨effect_mem_wf i hwf, effect_pc_le i hpc253, effect_fl_legal i hfl, effect_run_legal i hlegal⟩

/-! ### Runs -/

theorem runMachine_succ {s t : State} (h : step s = .next t) (n : Nat) : runMachine (n + 1) s = runMachine n t := by
  rw [runMachine, h]

/-- What every step keeps, every run keeps. -/
theorem runMachine_induction {P : State → Prop} (hstep : ∀ s t, P s → step s = .next t → P t) :
    ∀ (n : Nat) (s : State), P s → P (runMachine n s)
  | 0, _, h => h
  | n + 1, s, h => by
    by_cases hrun : s.run = .running
    · obtain ⟨t, ht⟩ := exists_step hrun
      rw [runMachine_succ ht]
      exact runMachine_induction hstep n t (hstep s t h ht)
    · rwa [runMachine_of_not_running hrun]

/-- Settles O48. -/
theorem everyReachableStateMeetsTheInvariant : Obligations.EveryReachableStateMeetsTheInvariant :=
  fun _ s n h => runMachine_induction stepKeepsTheInvariant n s (inv_of_resetWith h)

/-- A run of `n + k` steps is one of `n` and then one of `k`. -/
theorem runMachine_add (n k : Nat) (s : State) : runMachine (n + k) s = runMachine k (runMachine n s) := by
  induction n generalizing s with
  | zero => rw [Nat.zero_add, runMachine]
  | succ n ih =>
    by_cases hrun : s.run = .running
    · obtain ⟨t, ht⟩ := exists_step hrun
      rw [Nat.add_right_comm, runMachine_succ ht, runMachine_succ ht, ih]
    · simp only [runMachine_of_not_running hrun]

/-- Settles O49. -/
theorem endedRunStaysEnded : Obligations.EndedRunStaysEnded := by
  intro n k s h
  rw [runMachine_add, runMachine_of_not_running h]

/-- A run that has ended after `n` and after `m` steps has ended in the same state. -/
theorem runMachine_ended_eq {s : State} {n m : Nat} (hn : (runMachine n s).run ≠ .running)
    (hm : (runMachine m s).run ≠ .running) : runMachine n s = runMachine m s := by
  rw [← endedRunStaysEnded n m s hn, Nat.add_comm, endedRunStaysEnded m n s hm]

/-- Settles O50: a run ends in one state only, and a run that does not end is RUNNING after every number of steps. -/
theorem everyRunEndsInExactlyOneWay : Obligations.EveryRunEndsInExactlyOneWay := by
  refine fun s => ⟨?_, ?_, ?_, ?_⟩
  · by_cases hend : NeverEnds s
    · exact .inr (.inr hend)
    · obtain ⟨n, hn⟩ := not_forall.mp hend
      cases hrun : (runMachine n s).run with
      | running => exact absurd hrun hn
      | halted => exact .inl ⟨n, hrun⟩
      | faulted e => exact .inr (.inl ⟨n, e, hrun⟩)
  · rintro ⟨⟨n, hn⟩, m, e, hm⟩
    rw [runMachine_ended_eq (m := m) (by rw [hn]; nofun) (by rw [hm]; nofun), hm] at hn
    cases hn
  · rintro ⟨⟨n, hn⟩, hnever⟩
    rw [hnever n] at hn
    cases hn
  · rintro ⟨⟨n, e, hn⟩, hnever⟩
    rw [hnever n] at hn
    cases hn

/-- A step keeps what has been put out, at the front of OUT. -/
theorem step_out_prefix {s t : State} (h : step s = .next t) : s.out <+: t.out := by
  by_cases hout : t.out = s.out
  · rw [hout]
  · obtain ⟨-, r, -, ht, -⟩ := onlyPrnWritesTheOutput s t h hout
    exact ⟨_, ht.symm⟩

/-- Settles O51: by induction on the run, each step keeping the front of OUT. -/
theorem outputOnlyGrowsAlongARun : Obligations.OutputOnlyGrowsAlongARun := fun n s =>
  runMachine_induction (P := fun t => s.out <+: t.out) (fun _ _ hout h => hout.trans (step_out_prefix h)) n s
    List.prefix_rfl

end Sys2Proof.Machine
end
